-- ==== Sys2Proof/Word.lean ====
section
/-! DEFINITION. The word types of the unit: bytes, 32-bit registers, 64-bit pairs, 8-byte HMAC messages. -/

namespace Sys2Proof

/-- A byte of a digest, a candidate, a code string or a message (R10). -/
abbrev Byte := BitVec 8

/-- A 32-bit register or command word (R22, R80). -/
abbrev Word := BitVec 32

/-- A 64-bit register pair, counter or time (R3, R6, R65). -/
abbrev DWord := BitVec 64

/-- The 8-byte message of an HMAC request (R44, R62); byte 0 is sent first. -/
abbrev Msg := Vector Byte 8

end Sys2Proof
end

