-- ==== Sys2Proof/Syntax.lean ====
section
/-! DEFINITION. The commands of the unit (R81), and the three fields of a command word (R80). -/

namespace Sys2Proof

/-- A legal command: one constructor per row of spec/opcode_table.json. `useNow` is the U bit (R82); the rows
without it have U fixed at 0. Every term is a legal command. -/
inductive Instr where
  /-- TRUNC: truncate the host-loaded digest (R102). -/
  | trunc
  /-- T2C and T2C.NOW: time to counter (R141). -/
  | t2c (useNow : Bool)
  /-- HOTP_GEN: the code of a counter (R122). -/
  | hotpGen
  /-- TOTP_GEN and TOTP_GEN.NOW: the code of a time (R143). -/
  | totpGen (useNow : Bool)
  /-- HOTP_VER: verify a candidate in a forward window (R123). -/
  | hotpVer
  /-- TOTP_VER and TOTP_VER.NOW: verify a candidate in a window on both sides (R145). -/
  | totpVer (useNow : Bool)
  /-- ZEROIZE: clear the buffers and the results (R160). -/
  | zeroize
  deriving DecidableEq, Repr

/-- The U bit a command carries, `snap.use_now` of R41. -/
def Instr.useNow : Instr → Bool
  | .trunc => false
  | .t2c u => u
  | .hotpGen => false
  | .totpGen u => u
  | .hotpVer => false
  | .totpVer u => u
  | .zeroize => false

/-- The fields of any 32-bit command word, legal or not (R80). -/
structure CmdFields where
  /-- OP, bits 3:0. -/
  op : BitVec 4
  /-- U, bit 4. -/
  useNow : Bool
  /-- RSV, bits 31:5. -/
  rsv : BitVec 27
  deriving DecidableEq, Repr

end Sys2Proof
end

