-- ==== Sys2Proof/WellFormed.lean ====
section
/-! DEFINITION. Which command words are well formed: the three checks of R82, R83 and R84 on a word's fields.
Every term of `Instr` is well formed by its type, so the checks stand on the raw fields. -/

namespace Sys2Proof

/-- R83: bits 31:5 are 0. -/
def CmdFields.rsvClear (f : CmdFields) : Bool := f.rsv == 0

/-- R81: opcodes 0x0 and 0x8 to 0xF are reserved. -/
def CmdFields.opAssigned (f : CmdFields) : Bool := 1 ≤ f.op.toNat && f.op.toNat ≤ 7

/-- R82: U = 1 only with T2C, TOTP_GEN and TOTP_VER. -/
def CmdFields.useNowAllowed (f : CmdFields) : Bool :=
  !f.useNow || f.op == 2 || f.op == 4 || f.op == 6

/-- A legal command word (R84, R86). -/
def CmdFields.wellFormed (f : CmdFields) : Bool :=
  f.rsvClear && f.opAssigned && f.useNowAllowed

end Sys2Proof
end

