-- ==== Sys2Proof/Decode.lean ====
section
/-! DEFINITION. The decoder of command words (R84), total on every word, and the encoder (R80, R81, R86). -/

namespace Sys2Proof

/-- Why a word is not a command (R84). Every reason is reported to the host as ILLEGAL_CMD. -/
inductive Illegal where
  /-- A bit of 31:5 is set (R83). -/
  | reservedBits
  /-- OP is 0x0 or 0x8 to 0xF (R81). -/
  | reservedOpcode
  /-- U = 1 with a command that takes no time (R82). -/
  | useNowNotAllowed
  deriving DecidableEq, Repr

/-- The fields of a word (R80). -/
def CmdFields.ofWord (w : Word) : CmdFields :=
  { op := w.extractLsb' 0 4, useNow := w.getLsbD 4, rsv := w.extractLsb' 5 27 }

/-- A command that is legal with U = 0 only (R82). -/
def withoutNow (f : CmdFields) (i : Instr) : Except Illegal Instr :=
  if f.useNow then .error .useNowNotAllowed else .ok i

/-- `Decode(w)` of R84. It reads nothing but the word. -/
def decode (w : Word) : Except Illegal Instr :=
  let f := CmdFields.ofWord w
  if f.rsv ≠ 0 then .error .reservedBits
  else
    match f.op.toNat with
    | 0x1 => withoutNow f .trunc
    | 0x2 => .ok (.t2c f.useNow)
    | 0x3 => withoutNow f .hotpGen
    | 0x4 => .ok (.totpGen f.useNow)
    | 0x5 => withoutNow f .hotpVer
    | 0x6 => .ok (.totpVer f.useNow)
    | 0x7 => withoutNow f .zeroize
    | _ => .error .reservedOpcode

/-- The OP value of a command (R81). -/
def opcode : Instr → BitVec 4
  | .trunc => 0x1
  | .t2c _ => 0x2
  | .hotpGen => 0x3
  | .totpGen _ => 0x4
  | .hotpVer => 0x5
  | .totpVer _ => 0x6
  | .zeroize => 0x7

/-- The word of a command: `{RSV = 0, U, OP}` (R80). -/
def encode (i : Instr) : Word :=
  (0 : BitVec 27) ++ BitVec.ofBool i.useNow ++ opcode i

/-- The command word made of the low `nbits` bits of `w`, zero above. -/
def tableWord (nbits w : Nat) : Word := BitVec.ofNat 32 (w % 2 ^ nbits)

/-- What the decoder reads from a word numbered as spec/opcode_table.json numbers it. No command is longer
than 32 bits (R80). -/
def decodeTableWord (nbits w : Nat) : Option Instr :=
  if nbits ≤ 32 then (decode (tableWord nbits w)).toOption else none

end Sys2Proof
end

