-- ==== Sys2Proof/Config.lean ====
section
/-! DEFINITION. What is fixed for a machine: the closed set of hash algorithms (R1), and the two values the
spec leaves open, as free values with no body (93_implementation_defined.md I1, I2, I5). -/

namespace Sys2Proof

/-- The three hash algorithms (R1). "A closed set admits no fourth value" (92_eei_decisions.md D9). -/
inductive Alg where
  | sha1
  | sha256
  | sha512
  deriving DecidableEq, Repr

/-- FREE VALUE. `P_HMAC` of R44 where `env.answers` has no row: `none` is Fail, and of `some d` the first
`L(alg)` bytes are the digest. It is one function for the whole run. Log 2. -/
opaque Config.pHmac : Alg → Msg → Option (Vector Byte 64)

/-- FREE VALUE. `P_NOW` of R45 at the n-th draw for which `env.nowInput` has no value. Log 3. -/
opaque Config.freeNow : Nat → DWord

end Sys2Proof
end

