-- ==== Sys2Proof/Machine/State.lean ====
section
/-! DEFINITION. The state of the unit as plain data: the registers of the window (R22), the hidden state (R40 to
R44), and the world outside the unit (the agents' order, the time source, the provider's known answers). -/

namespace Sys2Proof.Machine

/-- The error codes 1 to 6 of R171. Code 0 is `none` of `Status.err`; codes 7 to 15 are never produced. -/
inductive ErrCode where
  | cfgDigits
  | cfgAlg
  | cfgStep
  | cfgOverflow
  | keyFail
  | illegalCmd
  deriving DecidableEq, Repr

/-- The sequencer's phase (R40). -/
inductive Phase where
  | idle
  | issue
  | wait
  | finish
  deriving DecidableEq, Repr

/-- An answer of the HMAC provider: `Ok(d)` or `Fail` (R44). -/
inductive Answer where
  | ok (digest : List Byte)
  | fail
  deriving DecidableEq, Repr

/-- One HMAC request, `Req(alg, m)` of R44. -/
structure Req where
  alg : Alg
  msg : Msg
  deriving DecidableEq, Repr

/-- A known row of the provider's function: `P_HMAC(alg, msg) = answer` (log 2). -/
structure AnswerRow where
  alg : Alg
  msg : Msg
  answer : Answer
  deriving DecidableEq, Repr

/-- One atomic step of one agent (R71). -/
inductive Event where
  /-- The host's `BusRead(off)` (R61). -/
  | read (off : BitVec 8)
  /-- The host's `BusWrite(off, v)` (R61). -/
  | write (off : BitVec 8) (v : Word)
  /-- An access of fewer than 32 bits, which the spec leaves outside (R66). -/
  | narrow (off : BitVec 8)
  /-- The sequencer's turn: one unit step where one is enabled (R40). -/
  | unit
  /-- The HMAC provider's turn: one provider step where it is enabled (R44). -/
  | provider
  /-- The reset input (R47, R200). -/
  | reset
  deriving DecidableEq, Repr

/-- The registers the host writes: CTRL, CONFIG and the operands (R23 to R30, R39). -/
structure Regs where
  /-- CTRL.IE_DONE (R23). -/
  ieDone : Bool
  /-- CTRL.IE_ERR (R23). -/
  ieErr : Bool
  /-- CONFIG.DIGITS (R24). -/
  digits : BitVec 4
  /-- CONFIG.ALG (R24). -/
  algSel : BitVec 2
  /-- STEP (R25). -/
  stepSecs : Word
  /-- WINDOW (R26). -/
  window : Word
  /-- COUNTER_LO (R27). -/
  counterLo : Word
  /-- COUNTER_HI (R27). -/
  counterHi : Word
  /-- TIME_LO (R28). -/
  timeLo : Word
  /-- TIME_HI (R28). -/
  timeHi : Word
  /-- CAND_LEN (R29). -/
  candLen : BitVec 4
  /-- `cand[0..9]`, the characters of CAND0 to CAND2 (R30). -/
  cand : Vector Byte 10
  /-- `dbuf[0..63]`, the bytes of DIGEST0 to DIGEST15 (R39). -/
  dbuf : Vector Byte 64
  deriving DecidableEq, Repr

/-- STATUS without BUSY, which is `phase ≠ idle` (R31, R40). ERR and ERR_CODE are one optional code: ERR is
whether there is one, and ERR_CODE is 0 when there is none (log 6). -/
structure Status where
  done : Bool
  err : Option ErrCode
  matched : Bool
  overrun : Bool
  deriving DecidableEq, Repr

/-- The result registers (R34 to R38). -/
structure Results where
  /-- TSTEP (R34). -/
  tstep : DWord
  /-- CODE_NUM; bit 31 always reads 0 (R35). -/
  codeNum : BitVec 31
  /-- `chr[0..9]`, the characters of CODE0 to CODE2 (R36). -/
  chr : Vector Byte 10
  /-- MATCH_CTR (R37). -/
  matchCtr : DWord
  /-- MATCH_OFF, two's complement (R38). -/
  matchOff : DWord
  deriving DecidableEq, Repr

/-- The snapshot of R41. `op` holds `snap.op` and `snap.use_now`; `none` is the all-zero latch after reset. -/
structure Snap where
  op : Option Instr
  digits : BitVec 4
  alg : Alg
  stepSecs : Word
  window : Word
  counter : DWord
  time : DWord
  candLen : BitVec 4
  cand : Vector Byte 10
  dig : Vector Byte 64
  deriving DecidableEq, Repr

/-- The scan state of R42. -/
structure Scan where
  base : DWord
  k : Nat
  found : Bool
  fctr : DWord
  foff : Int
  wcode : BitVec 31
  wchr : Vector Byte 10
  fail : Bool
  deriving DecidableEq, Repr

/-- The HMAC port (R44). `req` is some request exactly when `req_valid` is 1, `rsp` some answer exactly when
`rsp_valid` is 1 (log 8). -/
structure Port where
  req : Option Req
  rsp : Option Answer
  deriving DecidableEq, Repr

/-- The world outside the unit: the model's own fields (log 1, 2, 3, 11). -/
structure Env where
  /-- The atomic steps still to happen, first one first (R71). -/
  events : List Event
  /-- What the time source will present at the next draws, first one first (R45). -/
  nowInput : List DWord
  /-- How many free time values have been drawn. -/
  draws : Nat
  /-- Known rows of `P_HMAC`; the first row of a request counts (R44). -/
  answers : List AnswerRow
  /-- The words that bus reads returned to the host, oldest first (R61). -/
  reads : List Word
  deriving DecidableEq, Repr

/-- The whole machine. -/
structure State where
  regs : Regs
  status : Status
  results : Results
  phase : Phase
  snap : Snap
  scan : Scan
  /-- The working digest WD (R43; log 15). -/
  wd : List Byte
  port : Port
  /-- The event history of HMAC requests, oldest first (R44, R77). -/
  history : List Req
  env : Env
  deriving DecidableEq, Repr

/-- Why the machine can stop. -/
inductive Fault where
  /-- Raised by a unit step in a busy phase with no command in the snapshot: a combination of data the spec
  does not have, which no run reaches (log 9). SAFE: the model stops where nothing is specified. -/
  | noLatchedCommand
  deriving DecidableEq, Repr

/-- Why a step is refused. -/
inductive Refusal where
  /-- Raised by `exec` for an instruction without a meaning yet. No arm raises it. SAFE. -/
  | notModelled (mnemonic : String)
  /-- Raised by an access narrower than 32 bits: "The model refuses such an access; it has no step for it"
  (R66; log 5). SAFE: the spec gives it no effect. -/
  | narrowAccess
  deriving DecidableEq, Repr

/-- The reset values of the registers the host writes (R22, R200). -/
def Regs.reset : Regs :=
  { ieDone := false, ieErr := false, digits := 6, algSel := 0, stepSecs := 30, window := 0
    counterLo := 0, counterHi := 0, timeLo := 0, timeHi := 0, candLen := 0
    cand := Vector.replicate 10 0, dbuf := Vector.replicate 64 0 }

/-- STATUS = 0 (R200). -/
def Status.reset : Status := { done := false, err := none, matched := false, overrun := false }

/-- Every result register 0 (R200). -/
def Results.reset : Results :=
  { tstep := 0, codeNum := 0, chr := Vector.replicate 10 0, matchCtr := 0, matchOff := 0 }

/-- "the snapshot to all zero" (R200). -/
def Snap.reset : Snap :=
  { op := none, digits := 0, alg := .sha1, stepSecs := 0, window := 0, counter := 0, time := 0
    candLen := 0, cand := Vector.replicate 10 0, dig := Vector.replicate 64 0 }

/-- "the scan state of 10_state.md rule R42 to zero" (R200). -/
def Scan.reset : Scan :=
  { base := 0, k := 0, found := false, fctr := 0, foff := 0, wcode := 0
    wchr := Vector.replicate 10 0, fail := false }

/-- Both valid bits 0 (R44, R200). -/
def Port.reset : Port := { req := none, rsp := none }

/-- Nothing scheduled, nothing known of the outside (DESIGN CHOICE, log 12). -/
def Env.reset : Env := { events := [], nowInput := [], draws := 0, answers := [], reads := [] }

/-- The machine right after the first reset (R200), with an empty request history (log 12). -/
def State.reset : State :=
  { regs := .reset, status := .reset, results := .reset, phase := .idle, snap := .reset
    scan := .reset, wd := List.replicate 64 0, port := .reset, history := [], env := .reset }

end Sys2Proof.Machine
end

