-- ==== Sys2Proof/Machine/Operands.lean ====
section
/-! DEFINITION. How operands are read: byte packing (R10, R64), the algorithm field (R1, R24), the snapshot
(R41), the counter-from-time divider (R140) and the time input (R45). -/

namespace Sys2Proof.Machine

/-- Byte `j` of a word in byte-string order: byte 0 is bits 31:24 (R64). -/
def wordByte (w : Word) (j : Nat) : Byte := w.extractLsb' (24 - 8 * j) 8

/-- The word of four bytes, the first in bits 31:24 (R64). -/
def packWord (b0 b1 b2 b3 : Byte) : Word := b0 ++ b1 ++ b2 ++ b3

/-- The word of the four bytes of `v` from index `start`; an index `v` does not have reads 0 (R30, R36). -/
def bytesWord {n : Nat} (v : Vector Byte n) (start : Nat) : Word :=
  packWord (v.getD start 0) (v.getD (start + 1) 0) (v.getD (start + 2) 0) (v.getD (start + 3) 0)

/-- `v` with the four bytes from index `start` set from a word; bytes of the word that fall on no index of `v`
are dropped (R30, R39). -/
def setBytes {n : Nat} (v : Vector Byte n) (start : Nat) (w : Word) : Vector Byte n :=
  Vector.ofFn fun i =>
    if start ≤ i.val ∧ i.val < start + 4 then wordByte w (i.val - start) else v[i]

/-- The low half of a 64-bit value (R65). -/
def loWord (d : DWord) : Word := d.extractLsb' 0 32

/-- The high half of a 64-bit value (R65). -/
def hiWord (d : DWord) : Word := d.extractLsb' 32 32

/-- `be64(c)`: byte `i` is `c[63 - 8*i : 56 - 8*i]` (R10). -/
def be64 (c : DWord) : Msg :=
  #v[c.extractLsb' 56 8, c.extractLsb' 48 8, c.extractLsb' 40 8, c.extractLsb' 32 8,
     c.extractLsb' 24 8, c.extractLsb' 16 8, c.extractLsb' 8 8, c.extractLsb' 0 8]

/-- The algorithm a value of CONFIG.ALG selects; 3 is reserved (R24). -/
def algOfBits (b : BitVec 2) : Option Alg :=
  match b.toNat with
  | 0 => some .sha1
  | 1 => some .sha256
  | 2 => some .sha512
  | _ => none

/-- The 2-bit tag of an algorithm, `port.req_alg` (R24, R44). -/
def algBits : Alg → BitVec 2
  | .sha1 => 0
  | .sha256 => 1
  | .sha512 => 2

/-- `L(alg)`, the digest length in bytes (R1). -/
def digestLen : Alg → Nat
  | .sha1 => 20
  | .sha256 => 32
  | .sha512 => 64

/-- `C = {COUNTER_HI, COUNTER_LO}` (R27). -/
def counterValue (r : Regs) : DWord := r.counterHi ++ r.counterLo

/-- `Tm = {TIME_HI, TIME_LO}` (R28). -/
def timeValue (r : Regs) : DWord := r.timeHi ++ r.timeLo

/-- `TimeStep(Tm, S) = Tm div S`, floor division of unsigned integers, for `S >= 1` (R140; log 16). -/
def timeStep (tm : DWord) (secs : Word) : DWord := BitVec.ofNat 64 (tm.toNat / secs.toNat)

/-- One draw of the time input: the value presented, and the world after it (R45). Where no value is waiting it
is a free value (log 3). -/
def drawNow (e : Env) : DWord × Env :=
  match e.nowInput with
  | v :: rest => (v, { e with nowInput := rest })
  | [] => (Config.freeNow e.draws, { e with draws := e.draws + 1 })

/-- `snap.Tm` of R41: the time input for U = 1, drawn once; the TIME register for U = 0 (R82). -/
def sampleTime (i : Instr) (s : State) : DWord × Env :=
  if i.useNow then drawNow s.env else (timeValue s.regs, s.env)

/-- The snapshot values of R41, with the time already sampled. A reserved ALG, which only ZEROIZE can meet here
and which it does not read, leaves the latch of the algorithm as it was (log 7). -/
def takeSnapshot (i : Instr) (tm : DWord) (s : State) : Snap :=
  { op := some i
    digits := s.regs.digits
    alg := (algOfBits s.regs.algSel).getD s.snap.alg
    stepSecs := s.regs.stepSecs
    window := s.regs.window
    counter := counterValue s.regs
    time := tm
    candLen := s.regs.candLen
    cand := s.regs.cand
    dig := s.regs.dbuf }

/-- `base` as acceptance computes it: `TimeStep(Tm, S)` for the time commands, C for the HOTP commands; the
others leave it as it was (R170). -/
def baseOf (i : Instr) (sn : Snap) (old : DWord) : DWord :=
  match i with
  | .t2c _ => timeStep sn.time sn.stepSecs
  | .totpGen _ => timeStep sn.time sn.stepSecs
  | .totpVer _ => timeStep sn.time sn.stepSecs
  | .hotpGen => sn.counter
  | .hotpVer => sn.counter
  | .trunc => old
  | .zeroize => old

/-- The base address of the window is the platform's (R69; log 10): the offset in the window that a platform
address reaches, if it lies in the window at `P_BASE` (R60). -/
def windowOffset (pBase addr : Nat) : Option (BitVec 8) :=
  if pBase ≤ addr ∧ addr < pBase + 256 then some (BitVec.ofNat 8 (addr - pBase)) else none

end Sys2Proof.Machine
end

