-- ==== Sys2Proof/Machine/Flags.lean ====
section
/-! DEFINITION. The STATUS flags (R31, R48): the words of STATUS, CTRL and CONFIG, write-1-to-clear (R32), the
flag effects of acceptance, rejection and completion (R170, R173 to R176), and the interrupt line (R46). -/

namespace Sys2Proof.Machine

/-- The values of STATUS.ERR_CODE (R171). -/
def ErrCode.toBits : ErrCode → BitVec 4
  | .cfgDigits => 1
  | .cfgAlg => 2
  | .cfgStep => 3
  | .cfgOverflow => 4
  | .keyFail => 5
  | .illegalCmd => 6

/-- STATUS.BUSY: "1 exactly when phase is not IDLE" (R40). -/
def State.busy (s : State) : Bool := s.phase != .idle

/-- STATUS.ERR (R31). -/
def Status.errBit (st : Status) : Bool := st.err.isSome

/-- STATUS.ERR_CODE: 0 when ERR = 0 (R31). -/
def Status.errCode (st : Status) : BitVec 4 :=
  match st.err with
  | none => 0
  | some c => c.toBits

/-- The STATUS word (R31): ERR_CODE in 11:8, OVERRUN 4, MATCH 3, ERR 2, DONE 1, BUSY 0. -/
def Status.word (st : Status) (busy : Bool) : Word :=
  (0 : BitVec 20) ++ st.errCode ++ (0 : BitVec 3) ++ BitVec.ofBool st.overrun ++
    BitVec.ofBool st.matched ++ BitVec.ofBool st.errBit ++ BitVec.ofBool st.done ++
    BitVec.ofBool busy

/-- The CTRL word (R23). -/
def ctrlWord (r : Regs) : Word :=
  (0 : BitVec 30) ++ BitVec.ofBool r.ieErr ++ BitVec.ofBool r.ieDone

/-- The CONFIG word (R24). -/
def configWord (r : Regs) : Word := (0 : BitVec 26) ++ r.algSel ++ r.digits

/-- A host write of `v` to STATUS: DONE, ERR with ERR_CODE, and OVERRUN are write-1-to-clear (R32). -/
def Status.clearedBy (st : Status) (v : Word) : Status :=
  { done := st.done && !v.getLsbD 1
    err := if v.getLsbD 2 then none else st.err
    matched := st.matched
    overrun := st.overrun && !v.getLsbD 4 }

/-- Acceptance: DONE, ERR, ERR_CODE and MATCH to 0 (R170). -/
def Status.accepted (st : Status) : Status :=
  { done := false, err := none, matched := false, overrun := st.overrun }

/-- `Reject(code)` (R174). -/
def Status.rejected (st : Status) (c : ErrCode) : Status :=
  { done := true, err := some c, matched := false, overrun := st.overrun }

/-- A dropped CMD write (R173). -/
def Status.overrunSet (st : Status) : Status := { st with overrun := true }

/-- The common success completion: DONE to 1; "ERR and ERR_CODE stay 0, as acceptance left them" (R175). -/
def Status.completed (st : Status) : Status := { st with done := true }

/-- The flags of the KEY_FAIL completion (R176); MATCH is written by the verify commands only. -/
def Status.keyFailed (st : Status) : Status := { st with done := true, err := some .keyFail }

/-- The interrupt output (R46). -/
def irq (s : State) : Bool :=
  (s.status.done && s.regs.ieDone) || (s.status.errBit && s.regs.ieErr)

end Sys2Proof.Machine
end

