-- ==== Sys2Proof/Machine/Ops.lean ====
section
/-! DEFINITION. The named operations: the register map (R22), the decision of a CMD write (R170 to R174, R177),
completion (R175, R176), the HMAC port (R44) and reset (R200). An error of this unit saves nothing and goes to no
handler (R182, R183): `reject` and `completeKeyFail` are its whole entry, and there is no return. -/

namespace Sys2Proof.Machine

/-- The registers of the window (R22). -/
inductive Reg where
  | ctrl | status | cmd | config | stepSecs | window
  | counterLo | counterHi | timeLo | timeHi
  | candLen | cand0 | cand1 | cand2
  | tstepLo | tstepHi | codeNum | code0 | code1 | code2
  | matchCtrLo | matchCtrHi | matchOffLo | matchOffHi
  | digest (k : Fin 16)
  deriving DecidableEq, Repr

/-- The register at an offset, by its word address `off[7:2]` (R61); `none` is a reserved offset (R22). -/
def regAt (off : BitVec 8) : Option Reg :=
  match off.toNat / 4 with
  | 0 => some .ctrl
  | 1 => some .status
  | 2 => some .cmd
  | 3 => some .config
  | 4 => some .stepSecs
  | 5 => some .window
  | 6 => some .counterLo
  | 7 => some .counterHi
  | 8 => some .timeLo
  | 9 => some .timeHi
  | 10 => some .candLen
  | 11 => some .cand0
  | 12 => some .cand1
  | 13 => some .cand2
  | 14 => some .tstepLo
  | 15 => some .tstepHi
  | 16 => some .codeNum
  | 17 => some .code0
  | 18 => some .code1
  | 19 => some .code2
  | 20 => some .matchCtrLo
  | 21 => some .matchCtrHi
  | 22 => some .matchOffLo
  | 23 => some .matchOffHi
  | n => if h : 24 ≤ n ∧ n < 40 then some (.digest ⟨n - 24, by omega⟩) else none

/-- What a register reads as. CMD and the DIGEST registers are write only and read 0 (R33, R39). -/
def readReg (s : State) : Reg → Word
  | .ctrl => ctrlWord s.regs
  | .status => s.status.word s.busy
  | .cmd => 0
  | .config => configWord s.regs
  | .stepSecs => s.regs.stepSecs
  | .window => s.regs.window
  | .counterLo => s.regs.counterLo
  | .counterHi => s.regs.counterHi
  | .timeLo => s.regs.timeLo
  | .timeHi => s.regs.timeHi
  | .candLen => s.regs.candLen.setWidth 32
  | .cand0 => bytesWord s.regs.cand 0
  | .cand1 => bytesWord s.regs.cand 4
  | .cand2 => bytesWord s.regs.cand 8
  | .tstepLo => loWord s.results.tstep
  | .tstepHi => hiWord s.results.tstep
  | .codeNum => s.results.codeNum.setWidth 32
  | .code0 => bytesWord s.results.chr 0
  | .code1 => bytesWord s.results.chr 4
  | .code2 => bytesWord s.results.chr 8
  | .matchCtrLo => loWord s.results.matchCtr
  | .matchCtrHi => hiWord s.results.matchCtr
  | .matchOffLo => loWord s.results.matchOff
  | .matchOffHi => hiWord s.results.matchOff
  | .digest _ => 0

/-- `BusRead(off)` (R61): an offset with no register reads 0. -/
def busRead (off : BitVec 8) (s : State) : Word :=
  match regAt off with
  | none => 0
  | some r => readReg s r

/-- What a write stores in the registers the host writes; RO registers, and CMD and STATUS, whose writes act
otherwise, store nothing (R22, R68). Reserved bits are dropped. -/
def storeReg (v : Word) (g : Regs) : Reg → Regs
  | .ctrl => { g with ieDone := v.getLsbD 0, ieErr := v.getLsbD 1 }
  | .config => { g with digits := v.extractLsb' 0 4, algSel := v.extractLsb' 4 2 }
  | .stepSecs => { g with stepSecs := v }
  | .window => { g with window := v }
  | .counterLo => { g with counterLo := v }
  | .counterHi => { g with counterHi := v }
  | .timeLo => { g with timeLo := v }
  | .timeHi => { g with timeHi := v }
  | .candLen => { g with candLen := v.extractLsb' 0 4 }
  | .cand0 => { g with cand := setBytes g.cand 0 v }
  | .cand1 => { g with cand := setBytes g.cand 4 v }
  | .cand2 => { g with cand := setBytes g.cand 8 v }
  | .digest k => { g with dbuf := setBytes g.dbuf (4 * k.val) v }
  | .status | .cmd => g
  | .tstepLo | .tstepHi | .codeNum | .code0 | .code1 | .code2 => g
  | .matchCtrLo | .matchCtrHi | .matchOffLo | .matchOffHi => g

/-- A CMD write while BUSY = 1: dropped, OVERRUN set, "changes nothing else" (R173). -/
def overrun (s : State) : State := { s with status := s.status.overrunSet }

/-- `Reject(code)`, the error entry at acceptance: it writes STATUS and nothing else (R174). -/
def reject (c : ErrCode) (s : State) : State := { s with status := s.status.rejected c }

/-- A CMD write does something only while BUSY = 0 (R170, R173). -/
def unlessBusy (s : State) (decided : State → State) : State :=
  if s.busy then overrun s else decided s

/-- Configuration validation, first cause first: DIGITS, ALG, STEP (R172, R179). ZEROIZE validates nothing
(R160). -/
def configError (i : Instr) (g : Regs) : Option ErrCode :=
  if i = .zeroize then none
  else if ¬(1 ≤ g.digits.toNat ∧ g.digits.toNat ≤ 10) then some .cfgDigits
  else if g.algSel = 3 then some .cfgAlg
  else if g.stepSecs = 0 then some .cfgStep
  else none

/-- The overflow check of R177, on unbounded integers: HOTP_VER and TOTP_VER only. -/
def windowOverflows (i : Instr) (sn : Snap) (base : DWord) : Bool :=
  match i with
  | .hotpVer => decide (sn.counter.toNat + sn.window.toNat > 2 ^ 64 - 1)
  | .totpVer _ => decide (base.toNat + sn.window.toNat > 2 ^ 64 - 1)
  | .trunc => false
  | .t2c _ => false
  | .hotpGen => false
  | .totpGen _ => false
  | .zeroize => false

/-- The scan state acceptance sets up (R42). -/
def scanStart (base : DWord) : Scan :=
  { base := base, k := 0, found := false, fctr := 0, foff := 0, wcode := 0
    wchr := Vector.replicate 10 0, fail := false }

/-- Acceptance: the snapshot is latched, the scan state set up, the flags cleared, the sequencer started (R170). -/
def accept (sn : Snap) (base : DWord) (s : State) : State :=
  { s with
    snap := sn
    scan := scanStart base
    status := s.status.accepted
    phase := .issue }

/-- What a CMD write of a legal command does while BUSY = 0: rejected for its configuration, rejected for
overflow, or accepted (R170). A draw of the time input, made after the configuration is found legal, counts even
when the overflow check then rejects (log 4). -/
def decideCommand (i : Instr) (s : State) : State :=
  match configError i s.regs with
  | some c => reject c s
  | none =>
    let (tm, env) := sampleTime i s
    let sn := takeSnapshot i tm s
    let base := baseOf i sn s.scan.base
    let drawn := { s with env := env }
    if windowOverflows i sn base then reject .cfgOverflow drawn else accept sn base drawn

/-- The CMD write of a legal command (R170), shared by every command. -/
def issueCommand (i : Instr) (s : State) : State := unlessBusy s (decideCommand i)

/-- The CMD write of an illegal word (R84, R170). -/
def issueIllegal (s : State) : State := unlessBusy s (reject .illegalCmd)

/-- The sequencer in another phase (R40). -/
def State.withPhase (s : State) (p : Phase) : State := { s with phase := p }

/-- `k <- k + 1` (R40). -/
def nextIndex (s : State) : State := { s with scan := { s.scan with k := s.scan.k + 1 } }

/-- The common success completion, with the sequencer back in IDLE (R175, R40). -/
def completeOk (s : State) : State := { s with status := s.status.completed, phase := .idle }

/-- The KEY_FAIL completion of the commands that make a code: no result register is written (R176). -/
def completeKeyFail (s : State) : State := { s with status := s.status.keyFailed, phase := .idle }

/-- The KEY_FAIL completion of the verify commands: MATCH, MATCH_CTR and MATCH_OFF are cleared as well (R176). -/
def completeVerifyKeyFail (s : State) : State :=
  { s with
    status := { s.status.keyFailed with matched := false }
    results := { s.results with matchCtr := 0, matchOff := 0 }
    phase := .idle }

/-- `HmacRequest(alg, m)`: the request goes on the port and into the event history (R44). -/
def hmacRequest (alg : Alg) (m : Msg) (s : State) : State :=
  { s with port := { s.port with req := some ⟨alg, m⟩ }, history := s.history ++ [⟨alg, m⟩] }

/-- `HmacResponse()` of `Ok(d)`: the port is cleared and WD holds the digest (R40, R44). -/
def takeDigest (d : List Byte) (s : State) : State :=
  { s with port := { req := none, rsp := none }, wd := d }

/-- `HmacResponse()` of `Fail`: the port is cleared and `fail` is set (R40, R44). -/
def takeFail (s : State) : State :=
  { s with port := { req := none, rsp := none }, scan := { s.scan with fail := true } }

/-- An answer the port can carry for an algorithm: exactly `L(alg)` bytes, or Fail (R44). -/
def Answer.fits (alg : Alg) : Answer → Bool
  | .ok d => d.length == digestLen alg
  | .fail => true

/-- `P_HMAC(alg, m)` (R44): the first known row for it, else the free function. A row whose digest has not
`L(alg)` bytes is no row (log 2). -/
def pHmac (e : Env) (alg : Alg) (m : Msg) : Answer :=
  match e.answers.find? (fun r => r.alg == alg && r.msg == m && r.answer.fits alg) with
  | some r => r.answer
  | none =>
    match Config.pHmac alg m with
    | none => .fail
    | some d => .ok (d.toList.take (digestLen alg))

/-- The provider step: enabled when a request is outstanding and unanswered (R44). -/
def providerStep (s : State) : State :=
  match s.port.req, s.port.rsp with
  | some r, none => { s with port := { s.port with rsp := some (pHmac s.env r.alg r.msg) } }
  | _, _ => s

/-- The reset step (R200): every register and all hidden state to its reset value. "The event history keeps the
requests made before reset"; the world outside is not the unit's to reset (log 12). -/
def resetUnit (s : State) : State :=
  { State.reset with history := s.history, env := s.env }

/-- A bus read returns its word to the host; the unit does not change (R61, R68; log 11). -/
def returnWord (v : Word) (s : State) : State :=
  { s with env := { s.env with reads := s.env.reads ++ [v] } }

end Sys2Proof.Machine
end

