-- ==== Sys2Proof/Machine/Control.lean ====
section
/-! DEFINITION. ZEROIZE (43_control.md). -/

namespace Sys2Proof.Machine

/-- ZEROIZE, the CMD write: it validates no configuration (R160, R170). -/
def execZeroize (s : State) : Host.Outcome State Fault Refusal := .next (issueCommand .zeroize s)

/-- Complete(ZEROIZE): the buffers and the results are cleared; CTRL, CONFIG, STEP, WINDOW, COUNTER, TIME and
OVERRUN are not changed (R160). -/
def completeZeroize (s : State) : State :=
  completeOk
    { s with
      regs :=
        { s.regs with
          dbuf := Vector.replicate 64 0
          cand := Vector.replicate 10 0
          candLen := 0 }
      results := { tstep := 0, codeNum := 0, chr := Vector.replicate 10 0, matchCtr := 0, matchOff := 0 }
      status := { s.status with matched := false }
      wd := List.replicate 64 0
      snap :=
        { s.snap with
          dig := Vector.replicate 64 0
          cand := Vector.replicate 10 0
          candLen := 0 }
      scan :=
        { s.scan with
          wcode := 0
          wchr := Vector.replicate 10 0
          fctr := 0
          foff := 0 } }

end Sys2Proof.Machine
end

