-- ==== Sys2Proof/Machine/Datapath.lean ====
section
/-! DEFINITION. The truncation datapath (R100, R101), the comparator (R120), and what the two kinds of commands
that ask the provider do with a digest: compute a code (R122, R143) or compare with the candidate (R123, R145). -/

namespace Sys2Proof.Machine

/-- `offset`: the low 4 bits of the last byte of the digest, which has at least 20 bytes (R100, R105;
log 16). -/
def truncOffset (d : List Byte) : Nat := (d.getD (d.length - 1) 0 &&& 0x0F).toNat

/-- `binCode`: four bytes from `offset`, the first most significant, its top bit cleared (R100). -/
def binCode (d : List Byte) : Word :=
  let o := truncOffset d
  ((d.getD o 0 &&& 0x7F).setWidth 32 <<< 24) ||| ((d.getD (o + 1) 0).setWidth 32 <<< 16) |||
    ((d.getD (o + 2) 0).setWidth 32 <<< 8) ||| (d.getD (o + 3) 0).setWidth 32

/-- `code` of `Trunc(d, D)`: `binCode mod 10^D` (R100). -/
def truncCode (d : List Byte) (digits : Nat) : Nat := (binCode d).toNat % 10 ^ digits

/-- Character `i` of `Dec(code, D)` (R101). -/
def decChar (code digits i : Nat) : Byte :=
  BitVec.ofNat 8 (0x30 + code / 10 ^ (digits - 1 - i) % 10)

/-- `Dec(code, D)`: the D-character decimal string, most significant digit first (R101). -/
def dec (code digits : Nat) : List Byte := (List.range digits).map (decChar code digits)

/-- The code string of a digest: `Dec(code, D)` of `Trunc(d, D)`. -/
def codeString (d : List Byte) (digits : Nat) : List Byte := dec (truncCode d digits) digits

/-- `Match(s, D, clen, cand)`: every one of the ten positions is compared and combined (R120). -/
def matchCode (str : List Byte) (digits : Nat) (clen : BitVec 4) (cand : Vector Byte 10) : Bool :=
  (List.range 10).foldl
      (fun eq i => eq && (if i < digits then cand.getD i 0 == str.getD i 0 else true)) true &&
    clen.toNat == digits

/-- Character buffer `v` with its first D characters set from a string. -/
def setChars (v : Vector Byte 10) (digits : Nat) (str : List Byte) : Vector Byte 10 :=
  Vector.ofFn fun i => if i.val < digits then str.getD i.val 0 else v[i]

/-- `for i in 0 .. 9: chr[i] <- (i < D) ? s[i] : 0x00` (R36, R102). -/
def codeChars (digits : Nat) (str : List Byte) : Vector Byte 10 :=
  setChars (Vector.replicate 10 0) digits str

/-- OnDigest of the generating commands: the working code and characters are set (R122, R143). -/
def workCode (s : State) : State :=
  let digits := s.snap.digits.toNat
  { s with
    scan :=
      { s.scan with
        wcode := BitVec.ofNat 31 (truncCode s.wd digits)
        wchr := setChars s.scan.wchr digits (codeString s.wd digits) } }

/-- CODE_NUM and CODE from the working code (R122, R143). -/
def Results.withWorkCode (r : Results) (digits : Nat) (sc : Scan) : Results :=
  { r with codeNum := sc.wcode, chr := codeChars digits sc.wchr.toList }

/-- OnDigest of the verify commands: the first match in scan order is kept (R123, R145). -/
def compareCode (ctr : DWord) (off : Int) (s : State) : State :=
  let digits := s.snap.digits.toNat
  if matchCode (codeString s.wd digits) digits s.snap.candLen s.snap.cand && !s.scan.found then
    { s with scan := { s.scan with found := true, fctr := ctr, foff := off } }
  else s

/-- MATCH_CTR and MATCH_OFF of a verify that completes without error (R124, R146). -/
def Results.withMatch (r : Results) (sc : Scan) : Results :=
  { r with
    matchCtr := if sc.found then sc.fctr else 0
    matchOff := if sc.found then BitVec.ofInt 64 sc.foff else 0 }

end Sys2Proof.Machine
end

