-- ==== Sys2Proof/Machine/Hotp.lean ====
section
/-! DEFINITION. HOTP_GEN and HOTP_VER (41_hotp.md). -/

namespace Sys2Proof.Machine

/-- HOTP_GEN, the CMD write (R122, R170). -/
def execHotpGen (s : State) : Host.Outcome State Fault Refusal := .next (issueCommand .hotpGen s)

/-- `Cand(HOTP_GEN, 0) = (snap.C, 0)` (R121). -/
def candHotpGen (s : State) : DWord × Int := (s.snap.counter, 0)

/-- Complete(HOTP_GEN) (R122, R176). -/
def completeHotpGen (s : State) : State :=
  if s.scan.fail then completeKeyFail s
  else completeOk { s with results := s.results.withWorkCode s.snap.digits.toNat s.scan }

/-- HOTP_VER, the CMD write (R123, R170, R177). -/
def execHotpVer (s : State) : Host.Outcome State Fault Refusal := .next (issueCommand .hotpVer s)

/-- `n(HOTP_VER) = snap.W + 1` (R121). -/
def countHotpVer (s : State) : Nat := s.snap.window.toNat + 1

/-- `Cand(HOTP_VER, k) = (snap.C + k, k)` (R121). -/
def candHotpVer (s : State) (k : Nat) : DWord × Int :=
  (BitVec.ofNat 64 (s.snap.counter.toNat + k), k)

/-- Complete(HOTP_VER) (R124, R126, R176). -/
def completeHotpVer (s : State) : State :=
  if s.scan.fail then completeVerifyKeyFail s
  else
    completeOk
      { s with
        status := { s.status with matched := s.scan.found }
        results := s.results.withMatch s.scan }

end Sys2Proof.Machine
end

