-- ==== Sys2Proof/Machine/Totp.lean ====
section
/-! DEFINITION. T2C, TOTP_GEN and TOTP_VER (42_totp.md). -/

namespace Sys2Proof.Machine

/-- T2C and T2C.NOW, the CMD write (R141, R170). -/
def execT2c (useNow : Bool) (s : State) : Host.Outcome State Fault Refusal :=
  .next (issueCommand (.t2c useNow) s)

/-- Complete(T2C): `TSTEP <- TimeStep(snap.Tm, snap.S)` (R141). -/
def completeT2c (s : State) : State :=
  completeOk
    { s with results := { s.results with tstep := timeStep s.snap.time s.snap.stepSecs } }

/-- TOTP_GEN and TOTP_GEN.NOW, the CMD write (R143, R170). -/
def execTotpGen (useNow : Bool) (s : State) : Host.Outcome State Fault Refusal :=
  .next (issueCommand (.totpGen useNow) s)

/-- `Cand(TOTP_GEN, 0) = (T, 0)` (R142). -/
def candTotpGen (s : State) : DWord × Int := (s.scan.base, 0)

/-- Complete(TOTP_GEN): TSTEP and the code (R143); a failed one writes none of them (R148, R176). -/
def completeTotpGen (s : State) : State :=
  if s.scan.fail then completeKeyFail s
  else
    completeOk
      { s with
        results :=
          { s.results.withWorkCode s.snap.digits.toNat s.scan with tstep := s.scan.base } }

/-- TOTP_VER and TOTP_VER.NOW, the CMD write (R145, R170, R177). -/
def execTotpVer (useNow : Bool) (s : State) : Host.Outcome State Fault Refusal :=
  .next (issueCommand (.totpVer useNow) s)

/-- The offset order `O(j)`: 0, -1, +1, -2, +2, … (R142). -/
def offsetOrder (j : Nat) : Int := if j % 2 = 1 then -((j + 1) / 2 : Nat) else (j / 2 : Nat)

/-- `J`: the indices whose counter is not negative, ascending (R142, R144). -/
def totpIndices (t w : Nat) : List Nat :=
  (List.range (2 * w + 1)).filter fun j => decide (0 ≤ (t : Int) + offsetOrder j)

/-- `n(TOTP_VER) = len(J)` (R142). -/
def countTotpVer (s : State) : Nat :=
  (totpIndices s.scan.base.toNat s.snap.window.toNat).length

/-- `Cand(TOTP_VER, k) = (T + O(J[k]), O(J[k]))` for `k < n` (R142; log 16). -/
def candTotpVer (s : State) (k : Nat) : DWord × Int :=
  let off := offsetOrder ((totpIndices s.scan.base.toNat s.snap.window.toNat).getD k 0)
  (BitVec.ofInt 64 ((s.scan.base.toNat : Int) + off), off)

/-- Complete(TOTP_VER) (R146, R148, R176). -/
def completeTotpVer (s : State) : State :=
  if s.scan.fail then completeVerifyKeyFail s
  else
    completeOk
      { s with
        status := { s.status with matched := s.scan.found }
        results := { s.results.withMatch s.scan with tstep := s.scan.base } }

end Sys2Proof.Machine
end

