-- ==== Sys2Proof/Machine/Truncation.lean ====
section
/-! DEFINITION. TRUNC: truncate a host-loaded digest (40_truncation.md). -/

namespace Sys2Proof.Machine

/-- TRUNC, the CMD write (R102, R170). Its later unit steps use `n = 0` and `completeTrunc`. -/
def execTrunc (s : State) : Host.Outcome State Fault Refusal := .next (issueCommand .trunc s)

/-- `snap.dig[0 .. L(snap.alg) - 1]` (R102). -/
def truncDigest (sn : Snap) : List Byte := sn.dig.toList.take (digestLen sn.alg)

/-- Complete(TRUNC) (R102). -/
def completeTrunc (s : State) : State :=
  let digits := s.snap.digits.toNat
  let d := truncDigest s.snap
  completeOk
    { s with
      results :=
        { s.results with
          codeNum := BitVec.ofNat 31 (truncCode d digits)
          chr := codeChars digits (codeString d digits) } }

end Sys2Proof.Machine
end

