-- ==== Sys2Proof/Machine/Dispatch.lean ====
section
/-! DEFINITION. `exec`: the meaning of a command, one arm per constructor. A command is executed by writing its
word to CMD (R33, R170); the unit steps that follow are in Machine/Sequencer.lean. -/

namespace Sys2Proof.Machine

def exec (i : Instr) (s : State) : Host.Outcome State Fault Refusal :=
  match i with
  | .trunc => Sys2Proof.Machine.execTrunc s
  | .t2c useNow => Sys2Proof.Machine.execT2c useNow s
  | .hotpGen => Sys2Proof.Machine.execHotpGen s
  | .totpGen useNow => Sys2Proof.Machine.execTotpGen useNow s
  | .hotpVer => Sys2Proof.Machine.execHotpVer s
  | .totpVer useNow => Sys2Proof.Machine.execTotpVer useNow s
  | .zeroize => Sys2Proof.Machine.execZeroize s

end Sys2Proof.Machine
end

