-- ==== Sys2Proof/Machine/Sequencer.lean ====
section
/-! DEFINITION. The sequencer (R40): which parts of a command its unit steps run, and the unit step. -/

namespace Sys2Proof.Machine

/-- `n(op)`, the number of HMAC requests (R102, R121, R141, R142, R160). -/
def requestCount (i : Instr) (s : State) : Nat :=
  match i with
  | .trunc => 0
  | .t2c _ => 0
  | .hotpGen => 1
  | .totpGen _ => 1
  | .hotpVer => countHotpVer s
  | .totpVer _ => countTotpVer s
  | .zeroize => 0

/-- `Cand(op, k) = (ctr, off)` (R121, R142). The commands with `n = 0` have no candidate and never ask for one. -/
def candidate (i : Instr) (s : State) (k : Nat) : DWord × Int :=
  match i with
  | .trunc => (0, 0)
  | .t2c _ => (0, 0)
  | .hotpGen => candHotpGen s
  | .totpGen _ => candTotpGen s
  | .hotpVer => candHotpVer s k
  | .totpVer _ => candTotpVer s k
  | .zeroize => (0, 0)

/-- `OnDigest(op, k, ctr, off)`, with the digest already in WD (R122, R123, R143, R145). -/
def onDigest (i : Instr) (ctr : DWord) (off : Int) (s : State) : State :=
  match i with
  | .trunc => s
  | .t2c _ => s
  | .hotpGen => workCode s
  | .totpGen _ => workCode s
  | .hotpVer => compareCode ctr off s
  | .totpVer _ => compareCode ctr off s
  | .zeroize => s

/-- `Complete(op)`, with the sequencer back in IDLE (R40, R175, R176). -/
def complete (i : Instr) (s : State) : State :=
  match i with
  | .trunc => completeTrunc s
  | .t2c _ => completeT2c s
  | .hotpGen => completeHotpGen s
  | .totpGen _ => completeTotpGen s
  | .hotpVer => completeHotpVer s
  | .totpVer _ => completeTotpVer s
  | .zeroize => completeZeroize s

/-- The ISSUE arm of R40. -/
def issueStep (i : Instr) (s : State) : State :=
  if s.scan.k < requestCount i s then
    (hmacRequest s.snap.alg (be64 (candidate i s s.scan.k).1) s).withPhase .wait
  else s.withPhase .finish

/-- The WAIT arm of R40, with the response `r` taken from the port. "In the WAIT arm, ctr and off are those of
the ISSUE step that sent the request": k has not changed since. -/
def waitStep (i : Instr) (r : Answer) (s : State) : State :=
  match r with
  | .fail => (takeFail s).withPhase .finish
  | .ok d =>
    let c := candidate i s s.scan.k
    (nextIndex (onDigest i c.1 c.2 (takeDigest d s))).withPhase .issue

/-- A unit step of a running command (R40). WAIT is enabled only when a response is there. -/
def commandStep (i : Instr) (s : State) : State :=
  match s.phase with
  | .idle => s
  | .issue => issueStep i s
  | .wait =>
    match s.port.rsp with
    | none => s
    | some r => waitStep i r s
  | .finish => complete i s

/-- The sequencer's turn (R40). "phase = IDLE: no unit step is enabled": nothing changes. -/
def unitStep (s : State) : Host.Outcome State Fault Refusal :=
  match s.phase, s.snap.op with
  | .idle, _ => .next s
  | _, some i => .next (commandStep i s)
  | _, none => .fault .noLatchedCommand

end Sys2Proof.Machine
end

