-- ==== Sys2Proof/Machine/Bus.lean ====
section
/-! DEFINITION. The atomic steps of every agent (R71): bus accesses (R61, R68), unit steps, provider steps, reset. -/

namespace Sys2Proof.Machine

/-- A host write of a word to CMD issues it as a command (R33, R170). -/
def writeCmd (w : Word) (s : State) : Host.Outcome State Fault Refusal :=
  match decode w with
  | .ok i => exec i s
  | .error _ => .next (issueIllegal s)

/-- The write effect of a register: CMD issues a command, STATUS clears bits, any other stores its value or
nothing (R68). -/
def writeReg (r : Reg) (v : Word) (s : State) : Host.Outcome State Fault Refusal :=
  match r with
  | .cmd => writeCmd v s
  | .status => .next { s with status := s.status.clearedBy v }
  | r => .next { s with regs := storeReg v s.regs r }

/-- `BusWrite(off, v)` (R61): a write to an offset with no register is ignored. -/
def busWrite (off : BitVec 8) (v : Word) (s : State) : Host.Outcome State Fault Refusal :=
  match regAt off with
  | none => .next s
  | some r => writeReg r v s

/-- One atomic step (R71). An agent whose step is not enabled changes nothing (log 17). -/
def runEvent (e : Event) (s : State) : Host.Outcome State Fault Refusal :=
  match e with
  | .read off => .next (returnWord (busRead off s) s)
  | .write off v => busWrite off v s
  | .narrow _ => .refused .narrowAccess
  | .unit => unitStep s
  | .provider => .next (providerStep s)
  | .reset => .next (resetUnit s)

end Sys2Proof.Machine
end

