-- ==== Sys2Proof/Machine/Step.lean ====
section
/-! DEFINITION. The step of the whole machine: the next atomic step in the agents' order (R71). -/

namespace Sys2Proof.Machine

/-- The state with the given atomic steps still to happen. -/
def State.withEvents (s : State) (es : List Event) : State := { s with env := { s.env with events := es } }

/-- One step: the first event happens. Where none is listed no agent moves (R190, R215; log 1). -/
def step (s : State) : Host.Outcome State Fault Refusal :=
  match s.env.events with
  | [] => .next s
  | e :: es => runEvent e (s.withEvents es)

/-- The state whose next event is the host's write of the given command word to CMD, at offset 0x08 (R33; log 13). -/
def State.withFetchWord (s : State) (nbits w : Nat) : State :=
  s.withEvents (.write 0x08 (tableWord nbits w) :: s.env.events)

end Sys2Proof.Machine
end

