-- ==== Sys2Proof/Safety.lean ====
section
/-! DEFINITION. Runs, what a safe outcome is, and the invariant of the unit, in the terms the statements use. -/

namespace Sys2Proof.Machine

/-- The events of a list, one after another, stopping at the first that does not answer a next state. -/
def runEvents : List Event → State → Host.Outcome State Fault Refusal
  | [], s => .next s
  | e :: es, s =>
    match runEvent e s with
    | .next t => runEvents es t
    | .fault r => .fault r
    | .refused r => .refused r

/-- The turns that take a command with `n` requests from acceptance to completion, the provider answering each
request (its liveness is a premise, R216; log 14): per request ISSUE, the answer, WAIT; then ISSUE to FINISH, and FINISH. -/
def scanTurns : Nat → List Event
  | 0 => [.unit, .unit]
  | n + 1 => .unit :: .provider :: .unit :: scanTurns n

/-- The configuration is one every command accepts (R172). -/
def Regs.legal (g : Regs) : Prop :=
  1 ≤ g.digits.toNat ∧ g.digits.toNat ≤ 10 ∧ g.algSel ≠ 3 ∧ g.stepSecs ≠ 0

/-- The algorithm a legal CONFIG selects (R24). -/
def Regs.alg (g : Regs) : Alg := (algOfBits g.algSel).getD .sha1

/-- A safe outcome: the machine goes on. -/
def Safe (o : Host.Outcome State Fault Refusal) : Prop := ∃ t, o = .next t

/-- `chr` renders `code` with some digit count (R35, R36); digit count 0 is the cleared state. -/
def Renders (code : BitVec 31) (chr : Vector Byte 10) (digits : Nat) : Prop :=
  digits ≤ 10 ∧ code.toNat < 10 ^ digits ∧ chr = codeChars digits (dec code.toNat digits)

/-- How many requests the running command has put on the port. -/
def sentRequests (s : State) : Nat :=
  s.scan.k + if s.phase = .wait ∨ s.scan.fail = true then 1 else 0

/-- What holds of a running command `i`, from its acceptance to its completion. -/
structure Running (i : Instr) (s : State) : Prop where
  /-- No command but ZEROIZE runs on an illegal configuration (R172). -/
  legal : i ≠ .zeroize → 1 ≤ s.snap.digits.toNat ∧ s.snap.digits.toNat ≤ 10 ∧ s.snap.stepSecs ≠ 0
  /-- The base is that of R121 and R142. -/
  base : s.scan.base = baseOf i s.snap s.scan.base
  /-- No counter of the window wraps (R177). -/
  noOverflow : windowOverflows i s.snap s.scan.base = false
  /-- The scan index is in range (R40). -/
  index : s.scan.k ≤ requestCount i s
  /-- In WAIT the outstanding request is that of the current candidate (R40, R44, R62). -/
  waiting : s.phase = .wait →
    s.scan.k < requestCount i s ∧
      s.port.req = some ⟨s.snap.alg, be64 (candidate i s s.scan.k).1⟩
  /-- FINISH is reached by a Fail or by the end of the scan (R40, R125, R147). -/
  finished : s.phase = .finish → s.scan.fail = true ∨ s.scan.k = requestCount i s
  /-- A Fail goes to FINISH at once (R126, R148). -/
  failed : s.scan.fail = true → s.phase = .finish ∧ s.scan.k < requestCount i s
  /-- A match found is that of a candidate already compared (R123, R145). -/
  found : s.scan.found = true →
    ∃ j < s.scan.k, s.scan.fctr = (candidate i s j).1 ∧ s.scan.foff = (candidate i s j).2
  /-- The history ends in this command's requests, in scan order (R121, R142, R214). -/
  requested : ∃ before, s.history = before ++
    (List.range (sentRequests s)).map fun j => ⟨s.snap.alg, be64 (candidate i s j).1⟩
  /-- Before the first digest the working code and its characters are those acceptance sets (R42, R170). -/
  unworked : s.scan.k = 0 → s.scan.wcode = 0 ∧ s.scan.wchr = Vector.replicate 10 0
  /-- After the digest the working characters render the working code (R122, R143). -/
  workCode : (i = .hotpGen ∨ ∃ u, i = .totpGen u) → 0 < s.scan.k →
    Renders s.scan.wcode s.scan.wchr s.snap.digits.toNat

/-- What MATCH = 1 says: the last command was a verify that completed without error and found a match, which the
match registers report (R31, R124, R146, R174). -/
structure State.MatchReported (s : State) : Prop where
  idle : s.phase = .idle
  noError : s.status.err = none
  verify : s.snap.op = some .hotpVer ∨ ∃ u, s.snap.op = some (.totpVer u)
  found : s.scan.fail = false ∧ s.scan.found = true
  counter : s.results.matchCtr = s.scan.fctr
  offset : s.results.matchOff = BitVec.ofInt 64 s.scan.foff

/-- The invariant of the unit. -/
structure State.Inv (s : State) : Prop where
  /-- A request is outstanding exactly in WAIT (R40, R44). -/
  request : s.port.req.isSome = true ↔ s.phase = .wait
  /-- A response belongs to an outstanding request (R44, R77). -/
  response : s.port.rsp.isSome = true → s.port.req.isSome = true
  /-- A digest on the port has exactly `L(alg)` bytes (R44). -/
  digest : ∀ r d, s.port.req = some r → s.port.rsp = some (.ok d) → d.length = digestLen r.alg
  /-- WD holds at most 64 bytes (R43). -/
  wd : s.wd.length ≤ 64
  /-- While BUSY, DONE, ERR and MATCH are 0 (R32, R170). -/
  busyFlags : s.busy = true →
    s.status.done = false ∧ s.status.err = none ∧ s.status.matched = false
  /-- MATCH = 1 only ever means that the last command was a verify that matched (R31, R174). -/
  matched : s.status.matched = true → s.MatchReported
  /-- CODE0 to CODE2 always render CODE_NUM (R35, R36). -/
  code : ∃ digits, Renders s.results.codeNum s.results.chr digits
  /-- A busy unit runs a latched command (R40, R41). -/
  running : s.busy = true → ∃ i, s.snap.op = some i ∧ Running i s

end Sys2Proof.Machine
end

