-- ==== Sys2Proof/Certificates/Slice0/Obligations.lean ====
section
/-! DEFINITION. The statements about the unit, for the provers. Each docstring names the rule it formalises. -/

open Sys2Proof Sys2Proof.Machine

/-! ### Encoding -/

/-- R81, R86: the ten legal words, written out bit by bit, decode to their commands. -/
def Obligations.LegalWordsDecode : Prop :=
  decode 0b00000000000000000000000000000001#32 = .ok .trunc ∧
  decode 0b00000000000000000000000000000010#32 = .ok (.t2c false) ∧
  decode 0b00000000000000000000000000010010#32 = .ok (.t2c true) ∧
  decode 0b00000000000000000000000000000011#32 = .ok .hotpGen ∧
  decode 0b00000000000000000000000000000100#32 = .ok (.totpGen false) ∧
  decode 0b00000000000000000000000000010100#32 = .ok (.totpGen true) ∧
  decode 0b00000000000000000000000000000101#32 = .ok .hotpVer ∧
  decode 0b00000000000000000000000000000110#32 = .ok (.totpVer false) ∧
  decode 0b00000000000000000000000000010110#32 = .ok (.totpVer true) ∧
  decode 0b00000000000000000000000000000111#32 = .ok .zeroize

/-- R80, R81, R86: decoding and encoding agree both ways: every command's word decodes to it, and a word decodes
to a command only if it is that command's word. -/
def Obligations.DecodeInvertsEncode : Prop :=
  ∀ (w : Word) (i : Instr), decode w = .ok i ↔ encode i = w

/-- R84: which words are illegal, what a legal word decodes to, and what an illegal word does on the bus of an
idle unit. -/
def Obligations.DecodeIsTotal : Prop :=
  ∀ w : Word,
    ((∃ e, decode w = .error e) ↔
      w.extractLsb' 5 27 ≠ 0 ∨ w.extractLsb' 0 4 = 0 ∨ 8 ≤ (w.extractLsb' 0 4).toNat ∨
        (w.getLsbD 4 = true ∧ w.extractLsb' 0 4 ≠ 2 ∧ w.extractLsb' 0 4 ≠ 4 ∧
          w.extractLsb' 0 4 ≠ 6)) ∧
    (∀ i, decode w = .ok i → opcode i = w.extractLsb' 0 4 ∧ i.useNow = w.getLsbD 4) ∧
    (∀ e s, decode w = .error e → s.busy = false →
      busWrite 0x08 w s = .next { s with
        status := { done := true, err := some .illegalCmd, matched := false
                    overrun := s.status.overrun } })

/-! ### Steps and the bus -/

/-- R33, R71 (log 1, log 13): when the next atomic step is the host's write of a legal word to CMD, the step is `exec` of the
decoded command, with that event taken off the list; `withFetchWord` sets up exactly that. -/
def Obligations.StepRunsDecodedCommand : Prop :=
  ∀ (w : Word) (i : Instr) (s : State), decode w = .ok i →
    (∀ es, s.env.events = .write 0x08 w :: es → step s = exec i (s.withEvents es)) ∧
    step (s.withFetchWord 32 w.toNat) = exec i s

/-- R71 (log 1): the machine's steps are the listed events, in their order: as many steps as there are events run them all,
and no event changes the list behind it. -/
def Obligations.StepsFollowEventOrder : Prop :=
  ∀ (es rest : List Event) (s : State),
    Host.Core.run Sys2Proof.core es.length (s.withEvents (es ++ rest)) =
      runEvents es (s.withEvents rest)

/-- R61: the two bus primitives. A read returns the register's value, which the model records (log 11); the low two offset bits are not carried;
neither fails; an offset with no register (0xA0 and above) reads 0 and ignores writes. -/
def Obligations.BusPrimitivesNeverFail : Prop :=
  ∀ (off : BitVec 8) (v : Word) (s : State),
    runEvent (.read off) s =
      .next { s with env := { s.env with reads := s.env.reads ++ [busRead off s] } } ∧
    busRead off s = busRead (off &&& 0xFC) s ∧
    runEvent (.write off v) s = runEvent (.write (off &&& 0xFC) v) s ∧
    (∃ t, runEvent (.write off v) s = .next t) ∧
    (0xA0 ≤ off.toNat → busRead off s = 0 ∧ runEvent (.write off v) s = .next s)

/-- R22, R23 to R30, R68: what is written to an RW register is read back in the bits the register has; no other word
of the window reads differently, the digest buffer, which no read shows, is unchanged, and no part of the machine but
the registers the host writes has changed. -/
def Obligations.WrittenRegisterReadsBack : Prop :=
  ∀ p ∈ ([(0x00, 0x00000003), (0x0C, 0x0000003F), (0x10, 0xFFFFFFFF), (0x14, 0xFFFFFFFF),
          (0x18, 0xFFFFFFFF), (0x1C, 0xFFFFFFFF), (0x20, 0xFFFFFFFF), (0x24, 0xFFFFFFFF),
          (0x28, 0x0000000F), (0x2C, 0xFFFFFFFF), (0x30, 0xFFFFFFFF), (0x34, 0xFFFF0000)] :
        List (BitVec 8 × Word)),
    ∀ (v : Word) (s : State), ∃ g,
      busWrite p.1 v s = .next { s with regs := g } ∧
      busRead p.1 { s with regs := g } = v &&& p.2 ∧
      g.dbuf = s.regs.dbuf ∧
      ∀ off : BitVec 8, off.toNat / 4 ≠ p.1.toNat / 4 →
        busRead off { s with regs := g } = busRead off s

/-- R22, R68: a write to a read-only result register (0x38 to 0x5C) changes nothing. -/
def Obligations.ReadOnlyWritesIgnored : Prop :=
  ∀ (off : BitVec 8) (v : Word) (s : State),
    0x38 ≤ off.toNat → off.toNat < 0x60 → busWrite off v s = .next s

/-- R30: the candidate's characters and how CAND0 to CAND2 pack them, on reads, on writes, and at reset; the low
half of CAND2 reads 0. -/
def Obligations.CandidatePacking : Prop :=
  ∀ (v : Word) (s : State),
    busRead 0x2C s = s.regs.cand[0] ++ s.regs.cand[1] ++ s.regs.cand[2] ++ s.regs.cand[3] ∧
    busRead 0x30 s = s.regs.cand[4] ++ s.regs.cand[5] ++ s.regs.cand[6] ++ s.regs.cand[7] ∧
    busRead 0x34 s = s.regs.cand[8] ++ s.regs.cand[9] ++ (0 : BitVec 16) ∧
    (∀ w : Fin 3, ∃ chars : Vector Byte 10, busWrite (BitVec.ofNat 8 (0x2C + 4 * w.val)) v s =
        .next { s with regs := { s.regs with cand := chars } } ∧
      ∀ j : Fin 10, chars[j] =
        if j.val / 4 = w.val then v.extractLsb' (24 - 8 * (j.val % 4)) 8 else s.regs.cand[j]) ∧
    busRead 0x2C State.reset = 0 ∧ busRead 0x30 State.reset = 0 ∧ busRead 0x34 State.reset = 0

/-- R39, R64: a write to DIGESTk sets bytes 4k to 4k + 3 of the buffer, the first from bits 31:24, and nothing
else; a read of DIGESTk returns 0. -/
def Obligations.DigestPacking : Prop :=
  ∀ (k : Fin 16) (v : Word) (s : State),
    busRead (BitVec.ofNat 8 (0x60 + 4 * k.val)) s = 0 ∧
    ∃ b : Vector Byte 64, busWrite (BitVec.ofNat 8 (0x60 + 4 * k.val)) v s =
        .next { s with regs := { s.regs with dbuf := b } } ∧
      ∀ j : Fin 64, b[j] =
        if j.val / 4 = k.val then v.extractLsb' (24 - 8 * (j.val % 4)) 8 else s.regs.dbuf[j]

/-- R34 to R38, R64, R65: what the result registers read as: pairs as {HI, LO}, CODE_NUM with bit 31 zero, and the
characters packed first in bits 31:24. -/
def Obligations.ResultReads : Prop :=
  ∀ s : State,
    busRead 0x3C s ++ busRead 0x38 s = s.results.tstep ∧
    busRead 0x54 s ++ busRead 0x50 s = s.results.matchCtr ∧
    busRead 0x5C s ++ busRead 0x58 s = s.results.matchOff ∧
    busRead 0x40 s = (0 : BitVec 1) ++ s.results.codeNum ∧
    busRead 0x44 s =
      s.results.chr[0] ++ s.results.chr[1] ++ s.results.chr[2] ++ s.results.chr[3] ∧
    busRead 0x48 s =
      s.results.chr[4] ++ s.results.chr[5] ++ s.results.chr[6] ++ s.results.chr[7] ∧
    busRead 0x4C s = s.results.chr[8] ++ s.results.chr[9] ++ (0 : BitVec 16)

/-- R31, R40: the fields of the STATUS word. -/
def Obligations.StatusWordFields : Prop :=
  ∀ s : State,
    ((busRead 0x04 s).getLsbD 0 = true ↔ s.phase ≠ .idle) ∧
    (busRead 0x04 s).getLsbD 1 = s.status.done ∧
    ((busRead 0x04 s).getLsbD 2 = true ↔ s.status.err ≠ none) ∧
    (busRead 0x04 s).getLsbD 3 = s.status.matched ∧
    (busRead 0x04 s).getLsbD 4 = s.status.overrun ∧
    (busRead 0x04 s).extractLsb' 5 3 = 0 ∧
    (busRead 0x04 s).extractLsb' 8 4 =
      (match s.status.err with
       | none => 0
       | some .cfgDigits => 1
       | some .cfgAlg => 2
       | some .cfgStep => 3
       | some .cfgOverflow => 4
       | some .keyFail => 5
       | some .illegalCmd => 6) ∧
    (busRead 0x04 s).extractLsb' 12 20 = 0

/-- R32: a write to STATUS clears DONE, ERR with ERR_CODE, and OVERRUN where the value has a 1, busy or not, and
changes nothing else; while a command is running a 1 for DONE or ERR finds a bit that is already 0. -/
def Obligations.StatusWriteOneToClear : Prop :=
  ∀ (v : Word) (s : State),
    busWrite 0x04 v s = .next { s with
      status :=
        { done := if v.getLsbD 1 then false else s.status.done
          err := if v.getLsbD 2 then none else s.status.err
          matched := s.status.matched
          overrun := if v.getLsbD 4 then false else s.status.overrun } } ∧
    (s.Inv → s.busy = true → v.getLsbD 4 = false → busWrite 0x04 v s = .next s)

/-- R46: the interrupt output is a function of the STATUS and CTRL words, and falls when the host clears the bits
or the enables. -/
def Obligations.InterruptLevel : Prop :=
  ∀ s : State,
    irq s = (((busRead 0x04 s).getLsbD 1 && (busRead 0x00 s).getLsbD 0) ||
      ((busRead 0x04 s).getLsbD 2 && (busRead 0x00 s).getLsbD 1)) ∧
    (∀ v t, v.getLsbD 1 = true → v.getLsbD 2 = true → busWrite 0x04 v s = .next t →
      irq t = false) ∧
    (∀ v t, v.getLsbD 0 = false → v.getLsbD 1 = false → busWrite 0x00 v s = .next t →
      irq t = false)

/-- R66 (log 5): an access narrower than 32 bits is refused by name. -/
def Obligations.NarrowAccessRefused : Prop :=
  ∀ (off : BitVec 8) (s : State), runEvent (.narrow off) s = .refused .narrowAccess

/-- R60, R69 (log 10): an offset of the window is seen at `P_BASE + off`, and no address outside the 256 bytes from P_BASE
reaches the unit. -/
def Obligations.WindowAtPlatformBase : Prop :=
  ∀ (pBase addr : Nat),
    (∀ off : BitVec 8, windowOffset pBase (pBase + off.toNat) = some off) ∧
    (windowOffset pBase addr = none ↔ addr < pBase ∨ pBase + 256 ≤ addr)

/-! ### Reset -/

/-- R200: what a reset step leaves, from any state: every register at its reset value, STATUS 0, the sequencer
idle, snapshot, scan state and WD zero, no request and no response, the history kept, `irq` 0, and a later turn of
the provider ignored. That the latched opcode is then `none` (log 9), and that a turn of an agent whose step is not
enabled is a step that changes nothing (log 17), are the model's choice. -/
def Obligations.ResetStep : Prop :=
  ∀ s : State, ∃ t, runEvent .reset s = .next t ∧
    (∀ off : BitVec 8, busRead off t =
      if off.toNat / 4 = 3 then 0x00000006 else if off.toNat / 4 = 4 then 0x0000001E else 0) ∧
    t.regs.dbuf = Vector.replicate 64 0 ∧ t.regs.cand = Vector.replicate 10 0 ∧
    t.status = { done := false, err := none, matched := false, overrun := false } ∧
    t.phase = .idle ∧
    t.snap = { op := none, digits := 0, alg := .sha1, stepSecs := 0, window := 0, counter := 0
               time := 0, candLen := 0, cand := Vector.replicate 10 0
               dig := Vector.replicate 64 0 } ∧
    t.scan = { base := 0, k := 0, found := false, fctr := 0, foff := 0, wcode := 0
               wchr := Vector.replicate 10 0, fail := false } ∧
    (∀ b ∈ t.wd, b = 0) ∧ t.port.req = none ∧ t.port.rsp = none ∧
    t.history = s.history ∧ irq t = false ∧
    runEvent .provider t = .next t ∧ runEvent .unit t = .next t

/-- R203, L5: TRUNC right after reset truncates an all-zero digest to "000000". -/
def Obligations.TruncAfterReset : Prop :=
  ∃ t, runEvents [.write 0x08 0x00000001, .unit, .unit] State.reset = .next t ∧
    busRead 0x04 t = 0x00000002 ∧ busRead 0x40 t = 0 ∧ busRead 0x44 t = 0x30303030 ∧
    busRead 0x48 t = 0x30300000 ∧ busRead 0x4C t = 0

/-! ### The decision of a CMD write -/

/-- R173: a CMD write while BUSY = 1, legal or not, sets OVERRUN and changes nothing else, raises no interrupt, and
OVERRUN is cleared only by a 1 written to STATUS bit 4 or by reset. -/
def Obligations.BusyCommandIsDropped : Prop :=
  (∀ (w : Word) (s : State), s.busy = true →
    busWrite 0x08 w s = .next { s with status := { s.status with overrun := true } } ∧
    irq { s with status := { s.status with overrun := true } } = irq s) ∧
  (∀ (e : Event) (s t : State), runEvent e s = .next t → s.status.overrun = true →
    t.status.overrun = false →
      e = .reset ∨ ∃ off v, e = .write off v ∧ off.toNat / 4 = 1 ∧ v.getLsbD 4 = true)

/-- R179: the order in which the causes of a CMD write are looked at; the first that applies is the one recorded,
and where none applies the command is accepted. `drawn` is the world after the one time draw of a U = 1 command,
which a later overflow does not undo (the model's choice, log 4). -/
def Obligations.ErrorPriority : Prop :=
  ∀ (w : Word) (s : State),
    (s.busy = true → busWrite 0x08 w s = .next (overrun s)) ∧
    (s.busy = false →
      (∀ e, decode w = .error e → busWrite 0x08 w s = .next (reject .illegalCmd s)) ∧
      (∀ i, decode w = .ok i → i ≠ .zeroize →
        (¬(1 ≤ s.regs.digits.toNat ∧ s.regs.digits.toNat ≤ 10) →
          busWrite 0x08 w s = .next (reject .cfgDigits s)) ∧
        (1 ≤ s.regs.digits.toNat → s.regs.digits.toNat ≤ 10 →
          (s.regs.algSel = 3 → busWrite 0x08 w s = .next (reject .cfgAlg s)) ∧
          (s.regs.algSel ≠ 3 →
            (s.regs.stepSecs = 0 → busWrite 0x08 w s = .next (reject .cfgStep s)) ∧
            (s.regs.stepSecs ≠ 0 →
              ∀ drawn, drawn = { s with env := (sampleTime i s).2 } →
                (windowOverflows i (takeSnapshot i (sampleTime i s).1 s)
                    (baseOf i (takeSnapshot i (sampleTime i s).1 s) s.scan.base) = true →
                  busWrite 0x08 w s = .next (reject .cfgOverflow drawn)) ∧
                (windowOverflows i (takeSnapshot i (sampleTime i s).1 s)
                    (baseOf i (takeSnapshot i (sampleTime i s).1 s) s.scan.base) = false →
                  busWrite 0x08 w s = .next (accept (takeSnapshot i (sampleTime i s).1 s)
                    (baseOf i (takeSnapshot i (sampleTime i s).1 s) s.scan.base) drawn)))))))

/-- R174: a command that an idle unit does not accept sets DONE, ERR with an error code, and clears MATCH; BUSY
stays 0 and every other part of the unit is unchanged, the result registers, the snapshot and the scan state
included. -/
def Obligations.RejectionWritesStatusOnly : Prop :=
  ∀ (i : Instr) (s : State), s.busy = false →
    ∃ t, exec i s = .next t ∧
      (t.phase = .idle → ∃ c,
        t = { s with
              status := { done := true, err := some c, matched := false
                          overrun := s.status.overrun }
              env := t.env } ∧
        c ≠ .keyFail ∧ c ≠ .illegalCmd) ∧
      (t.phase ≠ .idle → t.phase = .issue ∧ t.status.err = none)

/-- R177: with a legal configuration, HOTP_VER is rejected with CFG_OVERFLOW exactly when C + W exceeds 2^64 - 1,
TOTP_VER exactly when T + W does, on unbounded integers; otherwise no error is recorded, and no other command is ever
rejected. -/
def Obligations.OverflowCheck : Prop :=
  ∀ s : State, s.busy = false → s.regs.legal →
    (∃ t, exec .hotpVer s = .next t ∧
      t.status.err =
        if (s.regs.counterHi ++ s.regs.counterLo).toNat + s.regs.window.toNat > 2 ^ 64 - 1 then
          some .cfgOverflow
        else none) ∧
    (∀ u, ∃ t, exec (.totpVer u) s = .next t ∧
      t.status.err =
        if (if u then (drawNow s.env).1 else s.regs.timeHi ++ s.regs.timeLo).toNat /
            s.regs.stepSecs.toNat + s.regs.window.toNat > 2 ^ 64 - 1 then
          some .cfgOverflow
        else none) ∧
    (∀ i, i ≠ .hotpVer → (∀ u, i ≠ .totpVer u) →
      ∃ t, exec i s = .next t ∧ t.status.err = none ∧ t.phase = .issue)

/-- R41, R42, R170: what acceptance leaves, for every command: the snapshot of every operand, the scan state set
up, DONE, ERR, ERR_CODE and MATCH 0 and BUSY 1; registers, results, WD, port and history are unchanged. Which
configurations are legal (R172) and which algorithm an ALG value selects (R1, R24) are spelt out. That a reserved ALG,
which only ZEROIZE meets, leaves the algorithm latch alone is the model's choice (log 7). -/
def Obligations.AcceptanceLatchesOperands : Prop :=
  (∀ (i : Instr) (s : State) (tm : DWord) (e : Env), s.busy = false →
    (i = .zeroize ∨ s.regs.legal) →
    (tm, e) = (if i.useNow then drawNow s.env else (s.regs.timeHi ++ s.regs.timeLo, s.env)) →
    (i = .hotpVer →
      (s.regs.counterHi ++ s.regs.counterLo).toNat + s.regs.window.toNat ≤ 2 ^ 64 - 1) →
    ((∃ u, i = .totpVer u) →
      tm.toNat / s.regs.stepSecs.toNat + s.regs.window.toNat ≤ 2 ^ 64 - 1) →
    ∃ base,
      exec i s = .next { s with
        snap :=
          { op := some i, digits := s.regs.digits
            alg := (algOfBits s.regs.algSel).getD s.snap.alg
            stepSecs := s.regs.stepSecs, window := s.regs.window
            counter := s.regs.counterHi ++ s.regs.counterLo, time := tm
            candLen := s.regs.candLen, cand := s.regs.cand, dig := s.regs.dbuf }
        scan :=
          { base := base, k := 0, found := false, fctr := 0, foff := 0, wcode := 0
            wchr := Vector.replicate 10 0, fail := false }
        status := { done := false, err := none, matched := false, overrun := s.status.overrun }
        phase := .issue
        env := e } ∧
      ((i = .hotpGen ∨ i = .hotpVer) → base = s.regs.counterHi ++ s.regs.counterLo) ∧
      ((∃ u, i = .t2c u ∨ i = .totpGen u ∨ i = .totpVer u) →
        base.toNat = tm.toNat / s.regs.stepSecs.toNat)) ∧
  (∀ g : Regs, g.legal ↔
    1 ≤ g.digits.toNat ∧ g.digits.toNat ≤ 10 ∧ g.algSel ≠ 3 ∧ g.stepSecs ≠ 0) ∧
  (algOfBits 0 = some .sha1 ∧ algOfBits 1 = some .sha256 ∧ algOfBits 2 = some .sha512 ∧
    algOfBits 3 = none) ∧
  (∀ g : Regs, g.legal → algOfBits g.algSel = some g.alg)

/-- R75, R218: no host write changes what a running command does: whatever the registers the host writes hold, a
turn of the unit or of the provider does the same to every other part of the machine. Only ZEROIZE's completion
writes such registers, and it clears the buffers and CAND_LEN whatever they hold (R160); every other turn leaves them
all as they are. -/
def Obligations.RunningCommandIgnoresRegisters : Prop :=
  ∀ (s t : State) (g : Regs) (e : Event), (e = .unit ∨ e = .provider) →
    runEvent e s = .next t →
    (e = .unit ∧ s.phase = .finish ∧ s.snap.op = some .zeroize →
      t.regs = { s.regs with
        dbuf := Vector.replicate 64 0, cand := Vector.replicate 10 0, candLen := 0 } ∧
      runEvent e { s with regs := g } = .next { t with
        regs := { g with
          dbuf := Vector.replicate 64 0, cand := Vector.replicate 10 0, candLen := 0 } }) ∧
    (¬(e = .unit ∧ s.phase = .finish ∧ s.snap.op = some .zeroize) →
      t.regs = s.regs ∧ runEvent e { s with regs := g } = .next { t with regs := g })

/-! ### The sequencer and the HMAC port -/

/-- R40, R44, R190: while the unit is idle no unit step is enabled, and the provider has no step without a request.
That such a turn is a step that changes nothing is the model's choice (log 17). -/
def Obligations.IdleUnitRests : Prop :=
  ∀ s : State,
    (s.phase = .idle → runEvent .unit s = .next s) ∧
    (s.port.req = none → runEvent .provider s = .next s)

/-- R44 (log 2): the provider answers the one outstanding request by its function, once; an `Ok` answer has exactly
`L(alg)` bytes, 20, 32 or 64 (R1, R105); the function stays the same through every step. That a turn of the provider
with an answer waiting is a step that changes nothing is the model's choice (log 17). -/
def Obligations.ProviderAnswersRequest : Prop :=
  (∀ (s : State) (r : Req), s.port.req = some r → s.port.rsp = none →
    runEvent .provider s =
      .next { s with port := { req := some r, rsp := some (pHmac s.env r.alg r.msg) } }) ∧
  (∀ (s : State) (a : Answer), s.port.rsp = some a → runEvent .provider s = .next s) ∧
  (∀ (e : Env) (alg : Alg) (m : Msg) (d : List Byte), pHmac e alg m = .ok d →
    d.length = digestLen alg) ∧
  (digestLen .sha1 = 20 ∧ digestLen .sha256 = 32 ∧ digestLen .sha512 = 64) ∧
  (∀ (e : Event) (s t : State), runEvent e s = .next t →
    ∀ (alg : Alg) (m : Msg), pHmac t.env alg m = pHmac s.env alg m)

/-- R44, R77: the event history only grows, by at most one request in a step, and only in a unit step that leaves
the ISSUE phase for WAIT; that request is then the outstanding one. -/
def Obligations.HistoryRecordsRequests : Prop :=
  ∀ (e : Event) (s t : State), runEvent e s = .next t →
    t.history = s.history ∨
      (e = .unit ∧ s.phase = .issue ∧ t.phase = .wait ∧
        ∃ r, t.history = s.history ++ [r] ∧ t.port.req = some r)

/-- R216: if the provider never answers, the unit stays in WAIT with BUSY = 1: only the provider and reset can
end the wait for a response. -/
def Obligations.SilentProviderHangs : Prop :=
  ∀ (es : List Event) (s t : State), s.phase = .wait → s.port.rsp = none →
    (∀ e ∈ es, e ≠ .provider ∧ e ≠ .reset) → runEvents es s = .next t →
      t.phase = .wait ∧ t.port.rsp = none ∧ t.history = s.history

/-- R45: the time input is read only at the acceptance of a U = 1 command, by the CMD write to an idle unit, and
only once. A TOTP_VER.NOW rejected with CFG_OVERFLOW has also made its one draw, which is the model's reading of R170
(log 4); a command rejected for DIGITS, ALG or STEP has made none. What a draw gives is the value the time source
presents, else a free value (log 3). -/
def Obligations.TimeSampledAtAcceptance : Prop :=
  (∀ (e : Event) (s t : State), runEvent e s = .next t →
    (t.env.nowInput = s.env.nowInput ∧ t.env.draws = s.env.draws) ∨
      (t.env = (drawNow s.env).2 ∧ s.busy = false ∧
        ∃ off w i, e = .write off w ∧ off.toNat / 4 = 2 ∧ decode w = .ok i ∧ i.useNow = true ∧
          (t.phase = .issue ∧ t.snap.time = (drawNow s.env).1 ∨
            i = .totpVer true ∧ t.phase = .idle ∧ t.status.err = some .cfgOverflow))) ∧
  (∀ (e : Env) (v : DWord) (rest : List DWord), e.nowInput = v :: rest →
    drawNow e = (v, { e with nowInput := rest })) ∧
  (∀ e : Env, e.nowInput = [] →
    drawNow e = (Config.freeNow e.draws, { e with draws := e.draws + 1 }))

/-! ### Datapaths -/

/-- R100: the truncation as arithmetic on the digest's bytes. -/
def Obligations.TruncationArithmetic : Prop :=
  ∀ (d : List Byte) (digits : Nat), d.length = 20 ∨ d.length = 32 ∨ d.length = 64 →
    1 ≤ digits → digits ≤ 10 →
    truncOffset d = (d.getD (d.length - 1) 0).toNat % 16 ∧
    truncOffset d + 3 ≤ 18 ∧
    (binCode d).toNat =
      (d.getD (truncOffset d) 0).toNat % 128 * 2 ^ 24 +
        (d.getD (truncOffset d + 1) 0).toNat * 2 ^ 16 +
        (d.getD (truncOffset d + 2) 0).toNat * 2 ^ 8 + (d.getD (truncOffset d + 3) 0).toNat ∧
    (binCode d).toNat ≤ 2147483647 ∧
    truncCode d digits = (binCode d).toNat % 10 ^ digits

/-- R104: the result depends only on the low 4 bits of the last byte and on the four bytes from the offset. -/
def Obligations.TruncationReadsFiveBytes : Prop :=
  ∀ (d d' : List Byte) (digits : Nat), d.length = 20 ∨ d.length = 32 ∨ d.length = 64 →
    d'.length = d.length →
    (d'.getD (d.length - 1) 0).toNat % 16 = (d.getD (d.length - 1) 0).toNat % 16 →
    (∀ j < 4, d'.getD ((d.getD (d.length - 1) 0).toNat % 16 + j) 0 =
      d.getD ((d.getD (d.length - 1) 0).toNat % 16 + j) 0) →
    truncOffset d' = truncOffset d ∧ binCode d' = binCode d ∧
      truncCode d' digits = truncCode d digits ∧
      truncOffset d + 3 < d.length - 1

/-- R103: the bound of a code, and D = 10: the code is binCode, and its first character is '0', '1' or '2'. -/
def Obligations.CodeBound : Prop :=
  ∀ (d : List Byte) (digits : Nat), 1 ≤ digits → digits ≤ 10 →
    truncCode d digits ≤ min (10 ^ digits - 1) (2 ^ 31 - 1) ∧
    truncCode d 10 = (binCode d).toNat ∧
    (codeString d 10).getD 0 0 ∈ ([0x30, 0x31, 0x32] : List Byte)

/-- R101: the rendering has exactly D ASCII digits, the i-th as the rule computes it, and its value is the code. -/
def Obligations.DecimalRendering : Prop :=
  ∀ (code digits : Nat), code < 10 ^ digits →
    (dec code digits).length = digits ∧
    (∀ i < digits,
      ((dec code digits).getD i 0).toNat = 0x30 + code / 10 ^ (digits - 1 - i) % 10) ∧
    (∀ c ∈ dec code digits, 0x30 ≤ c.toNat ∧ c.toNat ≤ 0x39) ∧
    (dec code digits).foldl (fun v c => 10 * v + (c.toNat - 0x30)) 0 = code

/-- R120: a match is exactly equal length and equality of the first D characters. -/
def Obligations.MatchIsStringEquality : Prop :=
  ∀ (str : List Byte) (digits : Nat) (clen : BitVec 4) (cand : Vector Byte 10), digits ≤ 10 →
    (matchCode str digits clen cand = true ↔
      clen.toNat = digits ∧ ∀ i < digits, cand.getD i 0 = str.getD i 0)

/-- R140: the divider's quotient is the floor of Tm / S and fits in 64 bits. -/
def Obligations.TimeStepIsFloor : Prop :=
  ∀ (tm : DWord) (secs : Word), 1 ≤ secs.toNat →
    (timeStep tm secs).toNat * secs.toNat ≤ tm.toNat ∧
    tm.toNat < ((timeStep tm secs).toNat + 1) * secs.toNat ∧
    (timeStep tm secs).toNat ≤ tm.toNat

/-- R142, R144, R147: the TOTP window: `n = (W + 1) + min(W, T)` candidates, exactly the offsets of [-W, +W] whose
counter is not negative, nearest first, and at equal distance the past one first. -/
def Obligations.TotpWindowOrder : Prop :=
  ∀ t w : Nat,
    (totpIndices t w).length = (w + 1) + min w t ∧
    (∀ off : Int, off ∈ (totpIndices t w).map offsetOrder ↔
      -(w : Int) ≤ off ∧ off ≤ w ∧ 0 ≤ (t : Int) + off) ∧
    ((totpIndices t w).map offsetOrder).Pairwise
      (fun a b => a.natAbs < b.natAbs ∨ (a.natAbs = b.natAbs ∧ a < b))

/-- R10, R62: the message of a request is the counter, most significant byte first. -/
def Obligations.MessageIsBigEndian : Prop :=
  ∀ c : DWord,
    (∀ i : Fin 8, (be64 c)[i] = c.extractLsb' (56 - 8 * i.val) 8) ∧
    (be64 c).toList.foldl (fun v b => 256 * v + b.toNat) 0 = c.toNat

/-! ### The commands, from the CMD write to completion

`pHmac` is the provider's function, whatever it is (log 2), and `drawNow` the draw of the time input, whatever it
gives (log 3). -/

/-- R102: TRUNC. With a legal configuration an idle unit accepts it, and two unit turns later CODE_NUM and CODE hold
the truncation of the first `L(ALG)` bytes of the digest buffer; no request is made and nothing else of the unit
that a host can read is written. The code string is `Dec` of `Trunc`, and the ten characters are the first D of it,
then 0x00 (R36). -/
def Obligations.TruncCompletes : Prop :=
  (∀ s : State, s.busy = false → s.regs.legal →
    ∃ t u, exec .trunc s = .next t ∧ t.phase = .issue ∧
      runEvents [.unit, .unit] t = .next u ∧
      u.results =
        { s.results with
          codeNum := BitVec.ofNat 31
            (truncCode (s.regs.dbuf.toList.take (digestLen s.regs.alg)) s.regs.digits.toNat)
          chr := codeChars s.regs.digits.toNat
            (codeString (s.regs.dbuf.toList.take (digestLen s.regs.alg)) s.regs.digits.toNat) } ∧
      u.results.codeNum.toNat =
        truncCode (s.regs.dbuf.toList.take (digestLen s.regs.alg)) s.regs.digits.toNat ∧
      u.status = { done := true, err := none, matched := false, overrun := s.status.overrun } ∧
      u.phase = .idle ∧ u.regs = s.regs ∧ u.snap = t.snap ∧ u.scan = t.scan ∧ u.wd = s.wd ∧
      u.port = s.port ∧ u.history = s.history ∧ u.env = s.env) ∧
  (∀ (d : List Byte) (digits : Nat), codeString d digits = dec (truncCode d digits) digits) ∧
  (∀ (digits : Nat) (str : List Byte) (i : Fin 10),
    (codeChars digits str)[i] = if i.val < digits then str.getD i.val 0 else 0x00)

/-- R141: T2C and T2C.NOW. TSTEP becomes the floor of the time (TIME, or the one draw of the time input) divided
by STEP; no request is made and no other result is written. -/
def Obligations.TimeToCounterCompletes : Prop :=
  ∀ (useNow : Bool) (s : State), s.busy = false → s.regs.legal →
    ∃ t u, exec (.t2c useNow) s = .next t ∧ t.phase = .issue ∧
      runEvents [.unit, .unit] t = .next u ∧
      u.results = { s.results with tstep := u.results.tstep } ∧
      u.results.tstep.toNat =
        (if useNow then (drawNow s.env).1 else s.regs.timeHi ++ s.regs.timeLo).toNat /
          s.regs.stepSecs.toNat ∧
      u.status = { done := true, err := none, matched := false, overrun := s.status.overrun } ∧
      u.phase = .idle ∧ u.regs = s.regs ∧ u.snap = t.snap ∧ u.scan = t.scan ∧ u.wd = s.wd ∧
      u.port = s.port ∧ u.history = s.history ∧
      u.env = (if useNow then (drawNow s.env).2 else s.env)

/-- R122: HOTP_GEN. One request, of the big-endian counter; when the provider answers `Ok(d)`, CODE_NUM and CODE
hold the truncation of d, and nothing else of the unit that a host can read but STATUS is written. -/
def Obligations.HotpGenCompletes : Prop :=
  ∀ (s : State) (d : List Byte), s.busy = false → s.regs.legal → s.port = { req := none, rsp := none } →
    pHmac s.env s.regs.alg (be64 (s.regs.counterHi ++ s.regs.counterLo)) = .ok d →
    ∃ t u, exec .hotpGen s = .next t ∧ t.phase = .issue ∧
      runEvents (scanTurns 1) t = .next u ∧
      u.results =
        { s.results with
          codeNum := BitVec.ofNat 31 (truncCode d s.regs.digits.toNat)
          chr := codeChars s.regs.digits.toNat (codeString d s.regs.digits.toNat) } ∧
      u.results.codeNum.toNat = truncCode d s.regs.digits.toNat ∧
      u.history =
        s.history ++ [⟨s.regs.alg, be64 (s.regs.counterHi ++ s.regs.counterLo)⟩] ∧
      u.status = { done := true, err := none, matched := false, overrun := s.status.overrun } ∧
      u.phase = .idle ∧ u.regs = s.regs ∧ u.snap = t.snap ∧ u.wd = d ∧
      u.port = { req := none, rsp := none } ∧ u.env = s.env

/-- R143: TOTP_GEN and TOTP_GEN.NOW. One request, of the big-endian time step T; when the provider answers `Ok(d)`,
TSTEP holds T and CODE_NUM and CODE the truncation of d. -/
def Obligations.TotpGenCompletes : Prop :=
  ∀ (useNow : Bool) (s : State) (step : DWord) (d : List Byte), s.busy = false → s.regs.legal →
    s.port = { req := none, rsp := none } →
    step = timeStep (if useNow then (drawNow s.env).1 else s.regs.timeHi ++ s.regs.timeLo)
      s.regs.stepSecs →
    pHmac s.env s.regs.alg (be64 step) = .ok d →
    ∃ t u, exec (.totpGen useNow) s = .next t ∧ t.phase = .issue ∧
      runEvents (scanTurns 1) t = .next u ∧
      u.results =
        { s.results with
          tstep := step
          codeNum := BitVec.ofNat 31 (truncCode d s.regs.digits.toNat)
          chr := codeChars s.regs.digits.toNat (codeString d s.regs.digits.toNat) } ∧
      u.results.codeNum.toNat = truncCode d s.regs.digits.toNat ∧
      u.history = s.history ++ [⟨s.regs.alg, be64 step⟩] ∧
      u.status = { done := true, err := none, matched := false, overrun := s.status.overrun } ∧
      u.phase = .idle ∧ u.regs = s.regs ∧ u.snap = t.snap ∧ u.wd = d ∧
      u.port = { req := none, rsp := none } ∧
      u.env = (if useNow then (drawNow s.env).2 else s.env)

/-- R122, R143: TOTP_GEN gives the same code as HOTP_GEN with `C = TimeStep(Tm, S)`. -/
def Obligations.TotpCodeIsHotpCode : Prop :=
  ∀ (s : State) (d : List Byte), s.busy = false → s.regs.legal → s.port = { req := none, rsp := none } →
    pHmac s.env s.regs.alg (be64 (timeStep (timeValue s.regs) s.regs.stepSecs)) = .ok d →
    ∀ s', s' = { s with regs := { s.regs with
        counterHi := hiWord (timeStep (timeValue s.regs) s.regs.stepSecs)
        counterLo := loWord (timeStep (timeValue s.regs) s.regs.stepSecs) } } →
    ∃ t u t' u', exec (.totpGen false) s = .next t ∧ runEvents (scanTurns 1) t = .next u ∧
      exec .hotpGen s' = .next t' ∧ runEvents (scanTurns 1) t' = .next u' ∧
      u.results.codeNum = u'.results.codeNum ∧ u.results.chr = u'.results.chr ∧
      u.history = u'.history ∧ u.status = u'.status ∧
      u.results.tstep = timeStep (timeValue s.regs) s.regs.stepSecs ∧
      u'.results.tstep = s.results.tstep

/-- R123, R124, R125: HOTP_VER, when the provider answers `Ok(d k)` for every counter C + k of the window. The unit
requests exactly C, C+1, …, C+W in that order, match or no match, and reports the lowest counter whose code equals
the candidate, or none; the code registers and TSTEP are not written. -/
def Obligations.HotpVerScansWindow : Prop :=
  ∀ (s : State) (d : Nat → List Byte) (c w : Nat) (hit : Option Nat), s.busy = false → s.regs.legal →
    s.port = { req := none, rsp := none } →
    c = (s.regs.counterHi ++ s.regs.counterLo).toNat → w = s.regs.window.toNat →
    c + w ≤ 2 ^ 64 - 1 →
    (∀ k ≤ w, pHmac s.env s.regs.alg (be64 (BitVec.ofNat 64 (c + k))) = .ok (d k)) →
    hit = (List.range (w + 1)).find? (fun k =>
      matchCode (codeString (d k) s.regs.digits.toNat) s.regs.digits.toNat s.regs.candLen
        s.regs.cand) →
    ∃ t u, exec .hotpVer s = .next t ∧ t.phase = .issue ∧
      runEvents (scanTurns (w + 1)) t = .next u ∧
      u.history = s.history ++ (List.range (w + 1)).map (fun k =>
        ⟨s.regs.alg, be64 (BitVec.ofNat 64 (c + k))⟩) ∧
      u.status = { done := true, err := none, matched := hit.isSome
                   overrun := s.status.overrun } ∧
      u.results = { s.results with
        matchCtr := (hit.map fun k => BitVec.ofNat 64 (c + k)).getD 0
        matchOff := (hit.map fun k => BitVec.ofNat 64 k).getD 0 } ∧
      u.phase = .idle ∧ u.regs = s.regs ∧ u.snap = t.snap ∧ u.wd = d w ∧
      u.port = { req := none, rsp := none } ∧ u.env = s.env

/-- R145, R146, R147: TOTP_VER and TOTP_VER.NOW, when the provider answers `Ok(d off)` for every counter T + off of
the window. The unit requests the counters in the order of R142, match or no match, and reports the first that
matches in that order; TSTEP becomes T and the code registers are not written. -/
def Obligations.TotpVerScansWindow : Prop :=
  ∀ (useNow : Bool) (s : State) (d : Int → List Byte) (step : DWord) (offs : List Int)
    (hit : Option Int), s.busy = false → s.regs.legal →
    s.port = { req := none, rsp := none } →
    step = timeStep (if useNow then (drawNow s.env).1 else s.regs.timeHi ++ s.regs.timeLo)
      s.regs.stepSecs →
    step.toNat + s.regs.window.toNat ≤ 2 ^ 64 - 1 →
    offs = (totpIndices step.toNat s.regs.window.toNat).map offsetOrder →
    (∀ off ∈ offs, pHmac s.env s.regs.alg (be64 (BitVec.ofInt 64 (step.toNat + off))) =
      .ok (d off)) →
    hit = offs.find? (fun off =>
      matchCode (codeString (d off) s.regs.digits.toNat) s.regs.digits.toNat s.regs.candLen
        s.regs.cand) →
    ∃ t u, exec (.totpVer useNow) s = .next t ∧ t.phase = .issue ∧
      runEvents (scanTurns offs.length) t = .next u ∧
      u.history = s.history ++ offs.map (fun off =>
        ⟨s.regs.alg, be64 (BitVec.ofInt 64 (step.toNat + off))⟩) ∧
      u.status = { done := true, err := none, matched := hit.isSome
                   overrun := s.status.overrun } ∧
      u.results = { s.results with
        tstep := step
        matchCtr := (hit.map fun off => BitVec.ofInt 64 (step.toNat + off)).getD 0
        matchOff := (hit.map fun off => BitVec.ofInt 64 off).getD 0 } ∧
      u.phase = .idle ∧ u.regs = s.regs ∧ u.snap = t.snap ∧
      (∀ last ∈ offs.getLast?, u.wd = d last) ∧
      u.port = { req := none, rsp := none } ∧
      u.env = (if useNow then (drawNow s.env).2 else s.env)

/-- R160: ZEROIZE. An idle unit accepts it whatever CONFIG and STEP hold, and two unit turns later the digest and
candidate buffers, CAND_LEN, every result register, MATCH, WD and the hidden copies are 0; CTRL, CONFIG, STEP, WINDOW,
COUNTER, TIME and OVERRUN are not changed, and no request is made. -/
def Obligations.ZeroizeCompletes : Prop :=
  ∀ s : State, s.busy = false →
    ∃ t u, exec .zeroize s = .next t ∧ t.phase = .issue ∧ t.regs = s.regs ∧
      runEvents [.unit, .unit] t = .next u ∧
      u.regs = { s.regs with
        dbuf := Vector.replicate 64 0, cand := Vector.replicate 10 0, candLen := 0 } ∧
      u.results = { tstep := 0, codeNum := 0, chr := Vector.replicate 10 0
                    matchCtr := 0, matchOff := 0 } ∧
      u.status = { done := true, err := none, matched := false, overrun := s.status.overrun } ∧
      (∀ b ∈ u.wd, b = 0) ∧
      u.snap = { t.snap with
        dig := Vector.replicate 64 0, cand := Vector.replicate 10 0, candLen := 0 } ∧
      u.scan.wcode = 0 ∧ u.scan.wchr = Vector.replicate 10 0 ∧ u.scan.fctr = 0 ∧
      u.scan.foff = 0 ∧
      u.phase = .idle ∧ u.port = s.port ∧ u.history = s.history ∧ u.env = s.env

/-- R176: a Fail answer to HOTP_GEN or TOTP_GEN. KEY_FAIL is recorded; CODE_NUM, CODE, TSTEP and the match registers
keep their old values; the request stays in the history and is not retried. -/
def Obligations.GenerateKeyFail : Prop :=
  ∀ (i : Instr) (s : State) (ctr : DWord), s.busy = false → s.regs.legal →
    s.port = { req := none, rsp := none } →
    ((i = .hotpGen ∧ ctr = s.regs.counterHi ++ s.regs.counterLo) ∨
      ∃ useNow, i = .totpGen useNow ∧
        ctr = timeStep (if useNow then (drawNow s.env).1 else s.regs.timeHi ++ s.regs.timeLo)
          s.regs.stepSecs) →
    pHmac s.env s.regs.alg (be64 ctr) = .fail →
    ∃ t u, exec i s = .next t ∧ runEvents [.unit, .provider, .unit, .unit] t = .next u ∧
      u.results = s.results ∧
      u.status = { done := true, err := some .keyFail, matched := false
                   overrun := s.status.overrun } ∧
      u.history = s.history ++ [⟨s.regs.alg, be64 ctr⟩] ∧
      u.phase = .idle ∧ u.regs = s.regs ∧ u.snap = t.snap ∧ u.wd = s.wd ∧
      u.port = { req := none, rsp := none } ∧
      u.env = (if i.useNow then (drawNow s.env).2 else s.env)

/-- R126: HOTP_VER when the provider answers Ok for the counters C to C + k - 1 and Fail for C + k: the scan stops
there, nothing is retried, MATCH, MATCH_CTR and MATCH_OFF are cleared even if an earlier counter had matched, and
KEY_FAIL is recorded. -/
def Obligations.HotpVerKeyFail : Prop :=
  ∀ (s : State) (c k : Nat), s.busy = false → s.regs.legal →
    s.port = { req := none, rsp := none } →
    c = (s.regs.counterHi ++ s.regs.counterLo).toNat →
    c + s.regs.window.toNat ≤ 2 ^ 64 - 1 → k ≤ s.regs.window.toNat →
    (∀ j < k, pHmac s.env s.regs.alg (be64 (BitVec.ofNat 64 (c + j))) ≠ .fail) →
    pHmac s.env s.regs.alg (be64 (BitVec.ofNat 64 (c + k))) = .fail →
    ∃ t u, exec .hotpVer s = .next t ∧
      runEvents ((List.replicate (k + 1) [.unit, .provider, .unit]).flatten ++ [.unit]) t =
        .next u ∧
      u.status = { done := true, err := some .keyFail, matched := false
                   overrun := s.status.overrun } ∧
      u.results = { s.results with matchCtr := 0, matchOff := 0 } ∧
      u.history = s.history ++ (List.range (k + 1)).map (fun j =>
        ⟨s.regs.alg, be64 (BitVec.ofNat 64 (c + j))⟩) ∧
      u.phase = .idle ∧ u.regs = s.regs ∧ u.snap = t.snap ∧
      u.port = { req := none, rsp := none } ∧ u.env = s.env

/-- R148: TOTP_VER when the provider answers Ok for the first k counters of the order of R142 and Fail for the next
one: the scan stops there, TSTEP is not written, MATCH, MATCH_CTR and MATCH_OFF are cleared, and KEY_FAIL is recorded. -/
def Obligations.TotpVerKeyFail : Prop :=
  ∀ (useNow : Bool) (s : State) (step : DWord) (done rest : List Int) (bad : Int),
    s.busy = false → s.regs.legal → s.port = { req := none, rsp := none } →
    step = timeStep (if useNow then (drawNow s.env).1 else s.regs.timeHi ++ s.regs.timeLo)
      s.regs.stepSecs →
    step.toNat + s.regs.window.toNat ≤ 2 ^ 64 - 1 →
    (totpIndices step.toNat s.regs.window.toNat).map offsetOrder = done ++ bad :: rest →
    (∀ off ∈ done, pHmac s.env s.regs.alg (be64 (BitVec.ofInt 64 (step.toNat + off))) ≠ .fail) →
    pHmac s.env s.regs.alg (be64 (BitVec.ofInt 64 (step.toNat + bad))) = .fail →
    ∃ t u, exec (.totpVer useNow) s = .next t ∧
      runEvents ((List.replicate (done.length + 1) [.unit, .provider, .unit]).flatten ++ [.unit]) t =
        .next u ∧
      u.status = { done := true, err := some .keyFail, matched := false
                   overrun := s.status.overrun } ∧
      u.results = { s.results with matchCtr := 0, matchOff := 0 } ∧
      u.history = s.history ++ (done ++ [bad]).map (fun off =>
        ⟨s.regs.alg, be64 (BitVec.ofInt 64 (step.toNat + off))⟩) ∧
      u.phase = .idle ∧ u.regs = s.regs ∧ u.snap = t.snap ∧
      u.port = { req := none, rsp := none } ∧
      u.env = (if useNow then (drawNow s.env).2 else s.env)

/-! ### Rules of the whole machine -/

/-- R34, R35, R36, R185: CODE_NUM and CODE change only when TRUNC, HOTP_GEN or TOTP_GEN completes without error, when
ZEROIZE completes, or at reset; TSTEP only when T2C, TOTP_GEN or TOTP_VER completes without error, when ZEROIZE
completes, or at reset. -/
def Obligations.ResultWriters : Prop :=
  ∀ (e : Event) (s t : State), runEvent e s = .next t → e ≠ .reset →
    ((t.results.codeNum ≠ s.results.codeNum ∨ t.results.chr ≠ s.results.chr) →
      e = .unit ∧ s.phase = .finish ∧ t.phase = .idle ∧ t.status.done = true ∧
        ∃ i, s.snap.op = some i ∧
          (i = .trunc ∨ i = .zeroize ∨
            ((i = .hotpGen ∨ ∃ u, i = .totpGen u) ∧ s.scan.fail = false))) ∧
    (t.results.tstep ≠ s.results.tstep →
      e = .unit ∧ s.phase = .finish ∧ t.phase = .idle ∧ t.status.done = true ∧
        ∃ i, s.snap.op = some i ∧
          ((∃ u, i = .t2c u) ∨ i = .zeroize ∨
            ((∃ u, i = .totpGen u ∨ i = .totpVer u) ∧ s.scan.fail = false))) ∧
    ((t.results.matchCtr ≠ s.results.matchCtr ∨ t.results.matchOff ≠ s.results.matchOff) →
      e = .unit ∧ s.phase = .finish ∧ t.phase = .idle ∧ t.status.done = true ∧
        ∃ i, s.snap.op = some i ∧ (i = .hotpVer ∨ i = .zeroize ∨ ∃ u, i = .totpVer u))

/-- R39, R43, R185: no bus read returns a byte of a digest: two states that differ only in the digest buffer, its
snapshot, WD, the port and the working code read the same at every offset. -/
def Obligations.DigestsAreNotReadable : Prop :=
  ∀ (off : BitVec 8) (s : State) (b dig : Vector Byte 64) (wd : List Byte) (p : Port) (sc : Scan),
    busRead off { s with
      regs := { s.regs with dbuf := b }, snap := { s.snap with dig := dig }
      wd := wd, port := p, scan := sc } = busRead off s

/-- R214: the requests a command makes do not depend on the candidate, on the digest buffer, or on any digest the
provider returns: two idle units that agree on the other registers and the time input, with providers that fail on
the same requests, add the same requests to their histories, whatever turns of the unit and the provider follow. That
every turn of the list is a step, one that is not enabled changing nothing, is the model's choice (log 17). -/
def Obligations.RequestsIndependentOfCandidate : Prop :=
  ∀ (i : Instr) (s s' : State) (es : List Event), s.busy = false → s'.busy = false →
    s'.regs = { s.regs with candLen := s'.regs.candLen, cand := s'.regs.cand, dbuf := s'.regs.dbuf } →
    s'.env.nowInput = s.env.nowInput → s'.env.draws = s.env.draws →
    s.port = { req := none, rsp := none } → s'.port = { req := none, rsp := none } →
    (∀ alg m, pHmac s.env alg m = .fail ↔ pHmac s'.env alg m = .fail) →
    (∀ e ∈ es, e = .unit ∨ e = .provider) →
    ∃ t t' u u' reqs, exec i s = .next t ∧ exec i s' = .next t' ∧
      runEvents es t = .next u ∧ runEvents es t' = .next u' ∧
      u.history = s.history ++ reqs ∧ u'.history = s'.history ++ reqs

/-- R40, R41, R44, R123, R145, R214 (through `State.Inv`): every step keeps the invariant of the unit, from every
state that meets it. -/
def Obligations.StepKeepsUnitConsistent : Prop :=
  ∀ s t : State, s.Inv → step s = .next t → t.Inv

/-- The invariant holds right after reset. -/
def Obligations.ResetIsConsistent : Prop := State.reset.Inv

/-- R180, 20_memory.md R61, R66: from a consistent state no step faults, and the only step refused is a narrow
access. -/
def Obligations.ConsistentUnitNeverFaults : Prop :=
  ∀ s : State, s.Inv →
    Safe (step s) ∨ ∃ off es, s.env.events = .narrow off :: es ∧ step s = .refused .narrowAccess
end

