-- ==== Sys2Proof/Laws/State.lean ====
section
/-! SUPPORT. One lemma per field per named update of the state, true by rfl, so that no proof unfolds an update. -/

namespace Sys2Proof.Machine

/-! `overrun` -/

@[simp] theorem overrun_regs (s : State) : (overrun s).regs = s.regs := rfl
@[simp] theorem overrun_status (s : State) : (overrun s).status = s.status.overrunSet := rfl
@[simp] theorem overrun_results (s : State) : (overrun s).results = s.results := rfl
@[simp] theorem overrun_phase (s : State) : (overrun s).phase = s.phase := rfl
@[simp] theorem overrun_snap (s : State) : (overrun s).snap = s.snap := rfl
@[simp] theorem overrun_scan (s : State) : (overrun s).scan = s.scan := rfl
@[simp] theorem overrun_wd (s : State) : (overrun s).wd = s.wd := rfl
@[simp] theorem overrun_port (s : State) : (overrun s).port = s.port := rfl
@[simp] theorem overrun_history (s : State) : (overrun s).history = s.history := rfl
@[simp] theorem overrun_env (s : State) : (overrun s).env = s.env := rfl

/-! `reject` -/

@[simp] theorem reject_regs (c : ErrCode) (s : State) : (reject c s).regs = s.regs := rfl
@[simp] theorem reject_status (c : ErrCode) (s : State) : (reject c s).status = s.status.rejected c := rfl
@[simp] theorem reject_results (c : ErrCode) (s : State) : (reject c s).results = s.results := rfl
@[simp] theorem reject_phase (c : ErrCode) (s : State) : (reject c s).phase = s.phase := rfl
@[simp] theorem reject_snap (c : ErrCode) (s : State) : (reject c s).snap = s.snap := rfl
@[simp] theorem reject_scan (c : ErrCode) (s : State) : (reject c s).scan = s.scan := rfl
@[simp] theorem reject_wd (c : ErrCode) (s : State) : (reject c s).wd = s.wd := rfl
@[simp] theorem reject_port (c : ErrCode) (s : State) : (reject c s).port = s.port := rfl
@[simp] theorem reject_history (c : ErrCode) (s : State) : (reject c s).history = s.history := rfl
@[simp] theorem reject_env (c : ErrCode) (s : State) : (reject c s).env = s.env := rfl

/-! `accept` -/

@[simp] theorem accept_regs (sn : Snap) (base : DWord) (s : State) : (accept sn base s).regs = s.regs := rfl
@[simp] theorem accept_status (sn : Snap) (base : DWord) (s : State) : (accept sn base s).status = s.status.accepted := rfl
@[simp] theorem accept_results (sn : Snap) (base : DWord) (s : State) : (accept sn base s).results = s.results := rfl
@[simp] theorem accept_phase (sn : Snap) (base : DWord) (s : State) : (accept sn base s).phase = .issue := rfl
@[simp] theorem accept_snap (sn : Snap) (base : DWord) (s : State) : (accept sn base s).snap = sn := rfl
@[simp] theorem accept_scan (sn : Snap) (base : DWord) (s : State) : (accept sn base s).scan = scanStart base := rfl
@[simp] theorem accept_wd (sn : Snap) (base : DWord) (s : State) : (accept sn base s).wd = s.wd := rfl
@[simp] theorem accept_port (sn : Snap) (base : DWord) (s : State) : (accept sn base s).port = s.port := rfl
@[simp] theorem accept_history (sn : Snap) (base : DWord) (s : State) : (accept sn base s).history = s.history := rfl
@[simp] theorem accept_env (sn : Snap) (base : DWord) (s : State) : (accept sn base s).env = s.env := rfl

/-! `completeOk` -/

@[simp] theorem completeOk_regs (s : State) : (completeOk s).regs = s.regs := rfl
@[simp] theorem completeOk_status (s : State) : (completeOk s).status = s.status.completed := rfl
@[simp] theorem completeOk_results (s : State) : (completeOk s).results = s.results := rfl
@[simp] theorem completeOk_phase (s : State) : (completeOk s).phase = .idle := rfl
@[simp] theorem completeOk_snap (s : State) : (completeOk s).snap = s.snap := rfl
@[simp] theorem completeOk_scan (s : State) : (completeOk s).scan = s.scan := rfl
@[simp] theorem completeOk_wd (s : State) : (completeOk s).wd = s.wd := rfl
@[simp] theorem completeOk_port (s : State) : (completeOk s).port = s.port := rfl
@[simp] theorem completeOk_history (s : State) : (completeOk s).history = s.history := rfl
@[simp] theorem completeOk_env (s : State) : (completeOk s).env = s.env := rfl

/-! `completeKeyFail` -/

@[simp] theorem completeKeyFail_regs (s : State) : (completeKeyFail s).regs = s.regs := rfl
@[simp] theorem completeKeyFail_status (s : State) : (completeKeyFail s).status = s.status.keyFailed := rfl
@[simp] theorem completeKeyFail_results (s : State) : (completeKeyFail s).results = s.results := rfl
@[simp] theorem completeKeyFail_phase (s : State) : (completeKeyFail s).phase = .idle := rfl
@[simp] theorem completeKeyFail_snap (s : State) : (completeKeyFail s).snap = s.snap := rfl
@[simp] theorem completeKeyFail_scan (s : State) : (completeKeyFail s).scan = s.scan := rfl
@[simp] theorem completeKeyFail_wd (s : State) : (completeKeyFail s).wd = s.wd := rfl
@[simp] theorem completeKeyFail_port (s : State) : (completeKeyFail s).port = s.port := rfl
@[simp] theorem completeKeyFail_history (s : State) : (completeKeyFail s).history = s.history := rfl
@[simp] theorem completeKeyFail_env (s : State) : (completeKeyFail s).env = s.env := rfl

/-! `completeVerifyKeyFail` -/

@[simp] theorem completeVerifyKeyFail_regs (s : State) : (completeVerifyKeyFail s).regs = s.regs := rfl
@[simp] theorem completeVerifyKeyFail_status (s : State) : (completeVerifyKeyFail s).status = { s.status.keyFailed with matched := false } := rfl
@[simp] theorem completeVerifyKeyFail_results (s : State) : (completeVerifyKeyFail s).results = { s.results with matchCtr := 0, matchOff := 0 } := rfl
@[simp] theorem completeVerifyKeyFail_phase (s : State) : (completeVerifyKeyFail s).phase = .idle := rfl
@[simp] theorem completeVerifyKeyFail_snap (s : State) : (completeVerifyKeyFail s).snap = s.snap := rfl
@[simp] theorem completeVerifyKeyFail_scan (s : State) : (completeVerifyKeyFail s).scan = s.scan := rfl
@[simp] theorem completeVerifyKeyFail_wd (s : State) : (completeVerifyKeyFail s).wd = s.wd := rfl
@[simp] theorem completeVerifyKeyFail_port (s : State) : (completeVerifyKeyFail s).port = s.port := rfl
@[simp] theorem completeVerifyKeyFail_history (s : State) : (completeVerifyKeyFail s).history = s.history := rfl
@[simp] theorem completeVerifyKeyFail_env (s : State) : (completeVerifyKeyFail s).env = s.env := rfl

/-! `hmacRequest` -/

@[simp] theorem hmacRequest_regs (alg : Alg) (m : Msg) (s : State) : (hmacRequest alg m s).regs = s.regs := rfl
@[simp] theorem hmacRequest_status (alg : Alg) (m : Msg) (s : State) : (hmacRequest alg m s).status = s.status := rfl
@[simp] theorem hmacRequest_results (alg : Alg) (m : Msg) (s : State) : (hmacRequest alg m s).results = s.results := rfl
@[simp] theorem hmacRequest_phase (alg : Alg) (m : Msg) (s : State) : (hmacRequest alg m s).phase = s.phase := rfl
@[simp] theorem hmacRequest_snap (alg : Alg) (m : Msg) (s : State) : (hmacRequest alg m s).snap = s.snap := rfl
@[simp] theorem hmacRequest_scan (alg : Alg) (m : Msg) (s : State) : (hmacRequest alg m s).scan = s.scan := rfl
@[simp] theorem hmacRequest_wd (alg : Alg) (m : Msg) (s : State) : (hmacRequest alg m s).wd = s.wd := rfl
@[simp] theorem hmacRequest_port (alg : Alg) (m : Msg) (s : State) : (hmacRequest alg m s).port = { s.port with req := some ⟨alg, m⟩ } := rfl
@[simp] theorem hmacRequest_history (alg : Alg) (m : Msg) (s : State) : (hmacRequest alg m s).history = s.history ++ [⟨alg, m⟩] := rfl
@[simp] theorem hmacRequest_env (alg : Alg) (m : Msg) (s : State) : (hmacRequest alg m s).env = s.env := rfl

/-! `takeDigest` -/

@[simp] theorem takeDigest_regs (d : List Byte) (s : State) : (takeDigest d s).regs = s.regs := rfl
@[simp] theorem takeDigest_status (d : List Byte) (s : State) : (takeDigest d s).status = s.status := rfl
@[simp] theorem takeDigest_results (d : List Byte) (s : State) : (takeDigest d s).results = s.results := rfl
@[simp] theorem takeDigest_phase (d : List Byte) (s : State) : (takeDigest d s).phase = s.phase := rfl
@[simp] theorem takeDigest_snap (d : List Byte) (s : State) : (takeDigest d s).snap = s.snap := rfl
@[simp] theorem takeDigest_scan (d : List Byte) (s : State) : (takeDigest d s).scan = s.scan := rfl
@[simp] theorem takeDigest_wd (d : List Byte) (s : State) : (takeDigest d s).wd = d := rfl
@[simp] theorem takeDigest_port (d : List Byte) (s : State) : (takeDigest d s).port = { req := none, rsp := none } := rfl
@[simp] theorem takeDigest_history (d : List Byte) (s : State) : (takeDigest d s).history = s.history := rfl
@[simp] theorem takeDigest_env (d : List Byte) (s : State) : (takeDigest d s).env = s.env := rfl

/-! `takeFail` -/

@[simp] theorem takeFail_regs (s : State) : (takeFail s).regs = s.regs := rfl
@[simp] theorem takeFail_status (s : State) : (takeFail s).status = s.status := rfl
@[simp] theorem takeFail_results (s : State) : (takeFail s).results = s.results := rfl
@[simp] theorem takeFail_phase (s : State) : (takeFail s).phase = s.phase := rfl
@[simp] theorem takeFail_snap (s : State) : (takeFail s).snap = s.snap := rfl
@[simp] theorem takeFail_scan (s : State) : (takeFail s).scan = { s.scan with fail := true } := rfl
@[simp] theorem takeFail_wd (s : State) : (takeFail s).wd = s.wd := rfl
@[simp] theorem takeFail_port (s : State) : (takeFail s).port = { req := none, rsp := none } := rfl
@[simp] theorem takeFail_history (s : State) : (takeFail s).history = s.history := rfl
@[simp] theorem takeFail_env (s : State) : (takeFail s).env = s.env := rfl

/-! `withPhase` -/

@[simp] theorem withPhase_regs (s : State) (p : Phase) : (State.withPhase s p).regs = s.regs := rfl
@[simp] theorem withPhase_status (s : State) (p : Phase) : (State.withPhase s p).status = s.status := rfl
@[simp] theorem withPhase_results (s : State) (p : Phase) : (State.withPhase s p).results = s.results := rfl
@[simp] theorem withPhase_phase (s : State) (p : Phase) : (State.withPhase s p).phase = p := rfl
@[simp] theorem withPhase_snap (s : State) (p : Phase) : (State.withPhase s p).snap = s.snap := rfl
@[simp] theorem withPhase_scan (s : State) (p : Phase) : (State.withPhase s p).scan = s.scan := rfl
@[simp] theorem withPhase_wd (s : State) (p : Phase) : (State.withPhase s p).wd = s.wd := rfl
@[simp] theorem withPhase_port (s : State) (p : Phase) : (State.withPhase s p).port = s.port := rfl
@[simp] theorem withPhase_history (s : State) (p : Phase) : (State.withPhase s p).history = s.history := rfl
@[simp] theorem withPhase_env (s : State) (p : Phase) : (State.withPhase s p).env = s.env := rfl

/-! `nextIndex` -/

@[simp] theorem nextIndex_regs (s : State) : (nextIndex s).regs = s.regs := rfl
@[simp] theorem nextIndex_status (s : State) : (nextIndex s).status = s.status := rfl
@[simp] theorem nextIndex_results (s : State) : (nextIndex s).results = s.results := rfl
@[simp] theorem nextIndex_phase (s : State) : (nextIndex s).phase = s.phase := rfl
@[simp] theorem nextIndex_snap (s : State) : (nextIndex s).snap = s.snap := rfl
@[simp] theorem nextIndex_scan (s : State) : (nextIndex s).scan = { s.scan with k := s.scan.k + 1 } := rfl
@[simp] theorem nextIndex_wd (s : State) : (nextIndex s).wd = s.wd := rfl
@[simp] theorem nextIndex_port (s : State) : (nextIndex s).port = s.port := rfl
@[simp] theorem nextIndex_history (s : State) : (nextIndex s).history = s.history := rfl
@[simp] theorem nextIndex_env (s : State) : (nextIndex s).env = s.env := rfl

/-! `returnWord` -/

@[simp] theorem returnWord_regs (v : Word) (s : State) : (returnWord v s).regs = s.regs := rfl
@[simp] theorem returnWord_status (v : Word) (s : State) : (returnWord v s).status = s.status := rfl
@[simp] theorem returnWord_results (v : Word) (s : State) : (returnWord v s).results = s.results := rfl
@[simp] theorem returnWord_phase (v : Word) (s : State) : (returnWord v s).phase = s.phase := rfl
@[simp] theorem returnWord_snap (v : Word) (s : State) : (returnWord v s).snap = s.snap := rfl
@[simp] theorem returnWord_scan (v : Word) (s : State) : (returnWord v s).scan = s.scan := rfl
@[simp] theorem returnWord_wd (v : Word) (s : State) : (returnWord v s).wd = s.wd := rfl
@[simp] theorem returnWord_port (v : Word) (s : State) : (returnWord v s).port = s.port := rfl
@[simp] theorem returnWord_history (v : Word) (s : State) : (returnWord v s).history = s.history := rfl
@[simp] theorem returnWord_env (v : Word) (s : State) : (returnWord v s).env = { s.env with reads := s.env.reads ++ [v] } := rfl

/-! `withEvents` -/

@[simp] theorem withEvents_regs (s : State) (es : List Event) : (State.withEvents s es).regs = s.regs := rfl
@[simp] theorem withEvents_status (s : State) (es : List Event) : (State.withEvents s es).status = s.status := rfl
@[simp] theorem withEvents_results (s : State) (es : List Event) : (State.withEvents s es).results = s.results := rfl
@[simp] theorem withEvents_phase (s : State) (es : List Event) : (State.withEvents s es).phase = s.phase := rfl
@[simp] theorem withEvents_snap (s : State) (es : List Event) : (State.withEvents s es).snap = s.snap := rfl
@[simp] theorem withEvents_scan (s : State) (es : List Event) : (State.withEvents s es).scan = s.scan := rfl
@[simp] theorem withEvents_wd (s : State) (es : List Event) : (State.withEvents s es).wd = s.wd := rfl
@[simp] theorem withEvents_port (s : State) (es : List Event) : (State.withEvents s es).port = s.port := rfl
@[simp] theorem withEvents_history (s : State) (es : List Event) : (State.withEvents s es).history = s.history := rfl
@[simp] theorem withEvents_env (s : State) (es : List Event) : (State.withEvents s es).env = { s.env with events := es } := rfl

/-! Flags -/

@[simp] theorem overrunSet_done (st : Status) : st.overrunSet.done = st.done := rfl
@[simp] theorem overrunSet_err (st : Status) : st.overrunSet.err = st.err := rfl
@[simp] theorem overrunSet_matched (st : Status) : st.overrunSet.matched = st.matched := rfl
@[simp] theorem overrunSet_overrun (st : Status) : st.overrunSet.overrun = true := rfl
@[simp] theorem completed_done (st : Status) : st.completed.done = true := rfl
@[simp] theorem completed_err (st : Status) : st.completed.err = st.err := rfl
@[simp] theorem completed_matched (st : Status) : st.completed.matched = st.matched := rfl
@[simp] theorem completed_overrun (st : Status) : st.completed.overrun = st.overrun := rfl
@[simp] theorem keyFailed_done (st : Status) : st.keyFailed.done = true := rfl
@[simp] theorem keyFailed_err (st : Status) : st.keyFailed.err = some .keyFail := rfl
@[simp] theorem keyFailed_matched (st : Status) : st.keyFailed.matched = st.matched := rfl
@[simp] theorem keyFailed_overrun (st : Status) : st.keyFailed.overrun = st.overrun := rfl
@[simp] theorem rejected_matched (st : Status) (c : ErrCode) : (st.rejected c).matched = false := rfl
@[simp] theorem rejected_overrun (st : Status) (c : ErrCode) : (st.rejected c).overrun = st.overrun := rfl
@[simp] theorem accepted_overrun (st : Status) : st.accepted.overrun = st.overrun := rfl
@[simp] theorem clearedBy_matched (st : Status) (v : Word) : (st.clearedBy v).matched = st.matched := rfl

end Sys2Proof.Machine
end

