-- ==== Sys2Proof/Laws/Ops.lean ====
section
/-! SUPPORT. One law per shared operation: everything it can do, said once, for the proofs to cite. -/

namespace Sys2Proof.Machine

/-! ### The decision of a CMD write -/

/-- Every command's meaning is the shared CMD write of that command. -/
theorem exec_eq (i : Instr) (s : State) : exec i s = .next (issueCommand i s) := by
  cases i <;> rfl

theorem issueCommand_busy {i : Instr} {s : State} (h : s.busy = true) :
    issueCommand i s = overrun s := by simp [issueCommand, unlessBusy, h]

theorem issueCommand_idle {i : Instr} {s : State} (h : s.busy = false) :
    issueCommand i s = decideCommand i s := by simp [issueCommand, unlessBusy, h]

theorem issueIllegal_busy {s : State} (h : s.busy = true) : issueIllegal s = overrun s := by
  simp [issueIllegal, unlessBusy, h]

theorem issueIllegal_idle {s : State} (h : s.busy = false) :
    issueIllegal s = reject .illegalCmd s := by simp [issueIllegal, unlessBusy, h]

theorem busy_iff {s : State} : s.busy = true ↔ s.phase ≠ .idle := by simp [State.busy]

theorem busy_false_iff {s : State} : s.busy = false ↔ s.phase = .idle := by simp [State.busy]

/-- The snapshot an acceptance of `i` would latch. -/
abbrev snapFor (i : Instr) (s : State) : Snap := takeSnapshot i (sampleTime i s).1 s

/-- The base an acceptance of `i` would set. -/
abbrev baseFor (i : Instr) (s : State) : DWord := baseOf i (snapFor i s) s.scan.base

/-- A legal command written to an idle unit is rejected for its configuration, rejected for overflow, or accepted. -/
theorem decideCommand_cases (i : Instr) (s : State) :
    (∃ c, configError i s.regs = some c ∧ decideCommand i s = reject c s) ∨
    (configError i s.regs = none ∧ windowOverflows i (snapFor i s) (baseFor i s) = true ∧
      decideCommand i s = reject .cfgOverflow { s with env := (sampleTime i s).2 }) ∨
    (configError i s.regs = none ∧ windowOverflows i (snapFor i s) (baseFor i s) = false ∧
      decideCommand i s =
        accept (snapFor i s) (baseFor i s) { s with env := (sampleTime i s).2 }) := by
  cases hc : configError i s.regs with
  | some c => exact .inl ⟨c, rfl, by simp [decideCommand, hc]⟩
  | none =>
    cases ho : windowOverflows i (snapFor i s) (baseFor i s) with
    | true => exact .inr (.inl ⟨rfl, rfl, by simp [decideCommand, hc, ho]⟩)
    | false => exact .inr (.inr ⟨rfl, rfl, by simp [decideCommand, hc, ho]⟩)

/-- Configuration validation finds nothing exactly for ZEROIZE and for a legal configuration. -/
theorem configError_eq_none_iff {i : Instr} {g : Regs} :
    configError i g = none ↔ i = .zeroize ∨ g.legal := by
  unfold configError Regs.legal
  split_ifs <;> simp_all

/-- Configuration validation reports the first of its three causes. -/
theorem configError_range {i : Instr} {g : Regs} {c : ErrCode} (h : configError i g = some c) :
    c = .cfgDigits ∨ c = .cfgAlg ∨ c = .cfgStep := by
  unfold configError at h
  split_ifs at h <;> simp_all

theorem sampleTime_of_useNow {i : Instr} {s : State} (h : i.useNow = true) :
    sampleTime i s = drawNow s.env := by simp [sampleTime, h]

theorem sampleTime_of_register {i : Instr} {s : State} (h : i.useNow = false) :
    sampleTime i s = (timeValue s.regs, s.env) := by simp [sampleTime, h]

@[simp] theorem drawNow_events (e : Env) : (drawNow e).2.events = e.events := by
  unfold drawNow; split <;> rfl

@[simp] theorem drawNow_answers (e : Env) : (drawNow e).2.answers = e.answers := by
  unfold drawNow; split <;> rfl

@[simp] theorem drawNow_reads (e : Env) : (drawNow e).2.reads = e.reads := by
  unfold drawNow; split <;> rfl

@[simp] theorem sampleTime_events (i : Instr) (s : State) :
    (sampleTime i s).2.events = s.env.events := by unfold sampleTime; split <;> simp

@[simp] theorem sampleTime_answers (i : Instr) (s : State) :
    (sampleTime i s).2.answers = s.env.answers := by unfold sampleTime; split <;> simp

/-- Everything a CMD write of a command can do: the registers, results, WD, port and history stay; the rest is one
of four cases. -/
theorem issueCommand_frame (i : Instr) (s : State) :
    (issueCommand i s).regs = s.regs ∧ (issueCommand i s).results = s.results ∧
      (issueCommand i s).wd = s.wd ∧ (issueCommand i s).port = s.port ∧
      (issueCommand i s).history = s.history ∧
      (issueCommand i s).env.events = s.env.events ∧
      (issueCommand i s).env.answers = s.env.answers := by
  cases hb : s.busy with
  | true => simp [issueCommand_busy hb]
  | false =>
    rw [issueCommand_idle hb]
    obtain ⟨c, _, h⟩ | ⟨_, _, h⟩ | ⟨_, _, h⟩ := decideCommand_cases i s <;> simp [h]

/-! ### The HMAC port -/

/-- A digest the provider answers has exactly `L(alg)` bytes (R44). -/
theorem length_of_pHmac {e : Env} {alg : Alg} {m : Msg} {d : List Byte}
    (h : pHmac e alg m = .ok d) : d.length = digestLen alg := by
  unfold pHmac at h
  split at h
  · rename_i r hr
    have := List.find?_some hr
    simp only [Answer.fits, h, Bool.and_eq_true, beq_iff_eq] at this
    exact this.2
  · split at h
    · cases h
    · cases h
      cases alg <;> simp [digestLen]

/-- The provider's function depends on the known answers only. -/
theorem pHmac_congr {e e' : Env} (h : e'.answers = e.answers) (alg : Alg) (m : Msg) :
    pHmac e' alg m = pHmac e alg m := by simp [pHmac, h]

theorem digestLen_le (alg : Alg) : digestLen alg ≤ 64 := by cases alg <;> decide

/-- The provider either answers the one outstanding request or does nothing. -/
theorem providerStep_cases (s : State) :
    (∃ r, s.port.req = some r ∧ s.port.rsp = none ∧
      providerStep s =
        { s with port := { s.port with rsp := some (pHmac s.env r.alg r.msg) } }) ∨
    ((s.port.req = none ∨ s.port.rsp ≠ none) ∧ providerStep s = s) := by
  unfold providerStep
  split
  · rename_i r h1 h2
    exact .inl ⟨r, h1, h2, rfl⟩
  · rename_i h
    refine .inr ⟨?_, rfl⟩
    cases hr : s.port.req with
    | none => exact .inl rfl
    | some r => exact .inr fun hn => h r hr hn

/-! ### The sequencer -/

/-- `n(op)` depends on the snapshot and the base only. -/
theorem requestCount_congr {s t : State} (i : Instr) (hs : t.snap = s.snap)
    (hb : t.scan.base = s.scan.base) : requestCount i t = requestCount i s := by
  cases i <;> simp [requestCount, countHotpVer, countTotpVer, hs, hb]

/-- `Cand(op, k)` depends on the snapshot and the base only. -/
theorem candidate_congr {s t : State} (i : Instr) (hs : t.snap = s.snap)
    (hb : t.scan.base = s.scan.base) (k : Nat) : candidate i t k = candidate i s k := by
  cases i <;>
    simp [candidate, candHotpGen, candTotpGen, candHotpVer, candTotpVer, hs, hb]

/-- `OnDigest` writes the scan state only, and neither the base, the index nor the fail flag. -/
theorem onDigest_frame (i : Instr) (ctr : DWord) (off : Int) (s : State) :
    ∃ sc, onDigest i ctr off s = { s with scan := sc } ∧ sc.base = s.scan.base ∧
      sc.k = s.scan.k ∧ sc.fail = s.scan.fail := by
  have same : ∃ sc, s = { s with scan := sc } ∧ sc.base = s.scan.base ∧ sc.k = s.scan.k ∧
      sc.fail = s.scan.fail := ⟨s.scan, rfl, rfl, rfl, rfl⟩
  cases i <;> simp only [onDigest, workCode, compareCode]
  case trunc | t2c | zeroize => exact same
  case hotpGen | totpGen => exact ⟨_, rfl, rfl, rfl, rfl⟩
  case hotpVer | totpVer =>
    split
    · exact ⟨_, rfl, rfl, rfl, rfl⟩
    · exact same

/-- A comparison that finds the first match keeps it, any other changes nothing. -/
theorem compareCode_eq (ctr : DWord) (off : Int) (s : State) :
    compareCode ctr off s =
      if matchCode (codeString s.wd s.snap.digits.toNat) s.snap.digits.toNat s.snap.candLen
          s.snap.cand = true ∧ s.scan.found = false then
        { s with scan := { s.scan with found := true, fctr := ctr, foff := off } }
      else s := by
  unfold compareCode
  simp

/-- The end of every command: idle, DONE, and nothing on the port, in the history or in the world moves. -/
theorem complete_frame (i : Instr) (s : State) :
    (complete i s).phase = .idle ∧ (complete i s).status.done = true ∧
      (complete i s).status.overrun = s.status.overrun ∧ (complete i s).port = s.port ∧
      (complete i s).history = s.history ∧ (complete i s).env = s.env := by
  cases i <;>
    simp [complete, completeTrunc, completeT2c, completeHotpGen, completeTotpGen,
      completeHotpVer, completeTotpVer, completeZeroize] <;>
    split_ifs <;> simp

/-- Every unit turn: nothing in IDLE, a step of the latched command otherwise. -/
theorem unitStep_cases {s t : State} (h : unitStep s = .next t) :
    (s.phase = .idle ∧ t = s) ∨
      ∃ i, s.phase ≠ .idle ∧ s.snap.op = some i ∧ t = commandStep i s := by
  unfold unitStep at h
  split at h
  · rename_i hp; cases h; exact .inl ⟨hp, rfl⟩
  · rename_i i ho hp
    cases h
    exact .inr ⟨i, hp, ho, rfl⟩
  · cases h

theorem unitStep_idle {s : State} (h : s.phase = .idle) : unitStep s = .next s := by
  simp [unitStep, h]

theorem unitStep_running {s : State} {i : Instr} (hp : s.phase ≠ .idle)
    (ho : s.snap.op = some i) : unitStep s = .next (commandStep i s) := by
  unfold unitStep
  split <;> simp_all

theorem commandStep_idle {i : Instr} {s : State} (h : s.phase = .idle) :
    commandStep i s = s := by simp only [commandStep, h]

theorem commandStep_issue {i : Instr} {s : State} (h : s.phase = .issue) :
    commandStep i s = issueStep i s := by simp only [commandStep, h]

theorem commandStep_wait_none {i : Instr} {s : State} (h : s.phase = .wait)
    (hr : s.port.rsp = none) : commandStep i s = s := by simp only [commandStep, h, hr]

theorem commandStep_wait_some {i : Instr} {s : State} {r : Answer} (h : s.phase = .wait)
    (hr : s.port.rsp = some r) : commandStep i s = waitStep i r s := by
  simp only [commandStep, h, hr]

theorem commandStep_finish {i : Instr} {s : State} (h : s.phase = .finish) :
    commandStep i s = complete i s := by simp only [commandStep, h]

/-- Every step of a running command (R40): one of the six arms. -/
theorem commandStep_cases (i : Instr) {s : State} (hp : s.phase ≠ .idle) :
    (s.phase = .issue ∧ s.scan.k < requestCount i s ∧
      commandStep i s =
        (hmacRequest s.snap.alg (be64 (candidate i s s.scan.k).1) s).withPhase .wait) ∨
    (s.phase = .issue ∧ requestCount i s ≤ s.scan.k ∧
      commandStep i s = s.withPhase .finish) ∨
    (s.phase = .wait ∧ s.port.rsp = none ∧ commandStep i s = s) ∨
    (s.phase = .wait ∧ s.port.rsp = some .fail ∧
      commandStep i s = (takeFail s).withPhase .finish) ∨
    (∃ d, s.phase = .wait ∧ s.port.rsp = some (.ok d) ∧
      commandStep i s =
        (nextIndex (onDigest i (candidate i s s.scan.k).1 (candidate i s s.scan.k).2
          (takeDigest d s))).withPhase .issue) ∨
    (s.phase = .finish ∧ commandStep i s = complete i s) := by
  unfold commandStep
  split
  · contradiction
  · rename_i h
    by_cases hk : s.scan.k < requestCount i s
    · exact .inl ⟨h, hk, by simp [issueStep, hk]⟩
    · exact .inr (.inl ⟨h, by omega, by simp [issueStep, hk]⟩)
  · rename_i h
    refine .inr (.inr ?_)
    split
    · rename_i hr; exact .inl ⟨h, hr, rfl⟩
    · rename_i r hr
      cases r with
      | fail => exact .inr (.inl ⟨h, hr, rfl⟩)
      | ok d => exact .inr (.inr (.inl ⟨d, h, hr, rfl⟩))
  · rename_i h
    exact .inr (.inr (.inr (.inr (.inr ⟨h, rfl⟩))))

/-! ### The bus -/

/-- Everything a bus write can do. -/
theorem busWrite_cases (off : BitVec 8) (v : Word) (s : State) :
    (regAt off = none ∧ busWrite off v s = .next s) ∨
    (regAt off = some .cmd ∧ (∃ i, decode v = .ok i ∧ busWrite off v s = exec i s)) ∨
    (regAt off = some .cmd ∧
      (∃ e, decode v = .error e ∧ busWrite off v s = .next (issueIllegal s))) ∨
    (regAt off = some .status ∧
      busWrite off v s = .next { s with status := s.status.clearedBy v }) ∨
    (∃ r, r ≠ .cmd ∧ r ≠ .status ∧ regAt off = some r ∧
      busWrite off v s = .next { s with regs := storeReg v s.regs r }) := by
  unfold busWrite
  split
  · rename_i h; exact .inl ⟨h, rfl⟩
  · rename_i r h
    unfold writeReg
    split
    · cases hd : decode v with
      | ok i => exact .inr (.inl ⟨h, i, rfl, by simp [writeCmd, hd]⟩)
      | error e => exact .inr (.inr (.inl ⟨h, e, rfl, by simp [writeCmd, hd]⟩))
    · exact .inr (.inr (.inr (.inl ⟨h, rfl⟩)))
    · rename_i hc hs
      exact .inr (.inr (.inr (.inr ⟨r, fun e => hc (e ▸ rfl), fun e => hs (e ▸ rfl), h, rfl⟩)))

/-- The window's map depends on the word address only (R61). -/
theorem regAt_word (off : BitVec 8) : regAt (off &&& 0xFC) = regAt off := by
  revert off; decide

/-- CMD is the word at 0x08, STATUS the word at 0x04. -/
theorem regAt_cmd_iff (off : BitVec 8) : regAt off = some .cmd ↔ off.toNat / 4 = 2 := by
  revert off; decide

theorem regAt_status_iff (off : BitVec 8) : regAt off = some .status ↔ off.toNat / 4 = 1 := by
  revert off; decide

/-- Offsets 0xA0 and above are the reserved ones (R22). -/
theorem regAt_none_iff (off : BitVec 8) : regAt off = none ↔ 0xA0 ≤ off.toNat := by
  revert off; decide

/-- A CMD write of a word reaches the decoder (R33). -/
theorem busWrite_cmd (w : Word) (s : State) : busWrite 0x08 w s = writeCmd w s := rfl

theorem runEvent_write_cmd_ok {w : Word} {i : Instr} (h : decode w = .ok i) (s : State) :
    runEvent (.write 0x08 w) s = exec i s := by
  rw [runEvent, busWrite_cmd, writeCmd, h]

/-! ### Runs -/

theorem runEvents_append (es fs : List Event) (s : State) :
    runEvents (es ++ fs) s =
      match runEvents es s with
      | .next t => runEvents fs t
      | .fault r => .fault r
      | .refused r => .refused r := by
  induction es generalizing s with
  | nil => rfl
  | cons e es ih =>
    simp only [List.cons_append, runEvents]
    cases runEvent e s with
    | next t => exact ih t
    | fault r => rfl
    | refused r => rfl

theorem runEvents_cons_next {e : Event} {es : List Event} {s t : State}
    (h : runEvent e s = .next t) : runEvents (e :: es) s = runEvents es t := by
  simp [runEvents, h]

/-- No event changes the list of the events that follow it. -/
theorem runEvent_keeps_events {e : Event} {s t : State} (h : runEvent e s = .next t) :
    t.env.events = s.env.events := by
  cases e with
  | read off => cases h; rfl
  | write off v =>
    obtain ⟨_, h'⟩ | ⟨_, i, _, h'⟩ | ⟨_, e, _, h'⟩ | ⟨_, h'⟩ | ⟨r, _, _, _, h'⟩ :=
      busWrite_cases off v s <;> simp only [runEvent, h'] at h
    · cases h; rfl
    · rw [exec_eq] at h
      cases h
      exact (issueCommand_frame i s).2.2.2.2.2.1
    · cases h
      unfold issueIllegal unlessBusy
      split <;> rfl
    · cases h; rfl
    · cases h; rfl
  | narrow off => cases h
  | unit =>
    obtain ⟨_, rfl⟩ | ⟨i, hp, _, rfl⟩ := unitStep_cases h
    · rfl
    · obtain ⟨_, _, h'⟩ | ⟨_, _, h'⟩ | ⟨_, _, h'⟩ | ⟨_, _, h'⟩ | ⟨d, _, _, h'⟩ | ⟨_, h'⟩ :=
        commandStep_cases i hp <;> rw [h']
      · rfl
      · rfl
      · rfl
      · obtain ⟨sc, hs, _⟩ := onDigest_frame i (candidate i s s.scan.k).1
          (candidate i s s.scan.k).2 (takeDigest d s)
        rw [hs]; rfl
      · rw [(complete_frame i s).2.2.2.2.2]
  | provider =>
    cases h
    obtain ⟨r, _, _, h'⟩ | ⟨_, h'⟩ := providerStep_cases s <;> rw [h']
  | reset => cases h; rfl

end Sys2Proof.Machine
end

