-- ==== Sys2Proof/Laws/Bytes.lean ====
section
/-! SUPPORT. Laws of byte packing (R10, R64, R65) and of the register map (R22). -/

namespace Sys2Proof.Machine

theorem setBytes_getD {n : Nat} (v : Vector Byte n) (start : Nat) (w : Word) (i : Nat)
    (hi : i < n) : (setBytes v start w).getD i 0 =
      if start ≤ i ∧ i < start + 4 then wordByte w (i - start) else v.getD i 0 := by
  simp [setBytes, Vector.getD, hi]

/-- The four bytes of a word make the word (R64). -/
theorem packWord_wordByte (w : Word) :
    packWord (wordByte w 0) (wordByte w 1) (wordByte w 2) (wordByte w 3) = w := by
  unfold packWord wordByte
  apply BitVec.eq_of_getLsbD_eq
  intro i hi
  simp only [BitVec.getLsbD_append, BitVec.getLsbD_extractLsb']
  split_ifs <;> rw [decide_eq_true (by omega), Bool.true_and] <;> congr 1 <;> omega

/-- The pair {HI, LO} makes the value (R65). -/
theorem hiWord_append_loWord (d : DWord) : hiWord d ++ loWord d = d := by
  unfold hiWord loWord
  apply BitVec.eq_of_getLsbD_eq
  intro i hi
  simp only [BitVec.getLsbD_append, BitVec.getLsbD_extractLsb']
  split_ifs <;> rw [decide_eq_true (by omega), Bool.true_and] <;> congr 1 <;> omega

/-- A register's word address (R22, R61). -/
def Reg.word : Reg → Nat
  | .ctrl => 0 | .status => 1 | .cmd => 2 | .config => 3 | .stepSecs => 4 | .window => 5
  | .counterLo => 6 | .counterHi => 7 | .timeLo => 8 | .timeHi => 9
  | .candLen => 10 | .cand0 => 11 | .cand1 => 12 | .cand2 => 13
  | .tstepLo => 14 | .tstepHi => 15 | .codeNum => 16 | .code0 => 17 | .code1 => 18
  | .code2 => 19 | .matchCtrLo => 20 | .matchCtrHi => 21 | .matchOffLo => 22
  | .matchOffHi => 23
  | .digest k => 24 + k.val

/-- The map is by word address, and no two registers share one (R22). -/
theorem word_of_regAt {off : BitVec 8} {r : Reg} (h : regAt off = some r) :
    off.toNat / 4 = r.word := by
  have all : ∀ off : BitVec 8, (regAt off).all (fun r => off.toNat / 4 == r.word) = true := by
    decide
  have := all off
  rw [h] at this
  simpa using this

theorem regAt_inj {off off' : BitVec 8} {r : Reg} (h : regAt off = some r)
    (h' : regAt off' = some r) : off.toNat / 4 = off'.toNat / 4 := by
  rw [word_of_regAt h, word_of_regAt h']

/-- What a write of four bytes reads back as. -/
theorem bytesWord_setBytes {n : Nat} (v : Vector Byte n) (start : Nat) (w : Word)
    (h : start + 4 ≤ n) : bytesWord (setBytes v start w) start = w := by
  simp only [bytesWord]
  rw [setBytes_getD _ _ _ _ (by omega), setBytes_getD _ _ _ _ (by omega),
    setBytes_getD _ _ _ _ (by omega), setBytes_getD _ _ _ _ (by omega)]
  simp [packWord_wordByte]

/-- A write of four bytes leaves the other words of the buffer. -/
theorem bytesWord_setBytes_of_disjoint {n : Nat} (v : Vector Byte n) (start at' : Nat)
    (w : Word) (h : at' + 4 ≤ start ∨ start + 4 ≤ at') :
    bytesWord (setBytes v start w) at' = bytesWord v at' := by
  have key : ∀ j < 4, (setBytes v start w).getD (at' + j) 0 = v.getD (at' + j) 0 := by
    intro j hj
    by_cases hn : at' + j < n
    · rw [setBytes_getD _ _ _ _ hn, if_neg (by omega)]
    · simp [Vector.getD, hn]
  simp only [bytesWord]
  rw [key 1 (by omega), key 2 (by omega), key 3 (by omega)]
  have := key 0 (by omega)
  simp only [Nat.add_zero] at this
  rw [this]

/-- CAND2 has two bytes; the rest of a word written to it is dropped (R30). -/
theorem bytesWord_setBytes_cand2 (v : Vector Byte 10) (w : Word) :
    bytesWord (setBytes v 8 w) 8 = w &&& 0xFFFF0000 := by
  have h2 : (setBytes v 8 w).getD 10 0 = 0 := by simp [Vector.getD]
  have h3 : (setBytes v 8 w).getD 11 0 = 0 := by simp [Vector.getD]
  simp only [bytesWord]
  rw [setBytes_getD _ _ _ _ (by omega), setBytes_getD _ _ _ _ (by omega), h2, h3]
  rw [if_pos (by omega), if_pos (by omega)]
  simp only [packWord, wordByte]
  apply BitVec.eq_of_getLsbD_eq
  intro i hi
  have hm : (0xFFFF0000 : Word).getLsbD i = decide (16 ≤ i) := by
    have : ∀ i : Fin 32, (0xFFFF0000 : Word).getLsbD i.val = decide (16 ≤ i.val) := by decide
    exact this ⟨i, hi⟩
  simp only [BitVec.getLsbD_append, BitVec.getLsbD_and, hm, BitVec.getLsbD_extractLsb']
  split_ifs
  · simp; omega
  · simp; omega
  · rw [decide_eq_true (by omega), decide_eq_true (by omega), Bool.true_and, Bool.and_true]
    congr 1
    omega
  · rw [decide_eq_true (by omega), decide_eq_true (by omega), Bool.true_and, Bool.and_true]
    congr 1
    omega

theorem getD_eq_getElem {n : Nat} (v : Vector Byte n) (i : Nat) (h : i < n) :
    v.getD i 0 = v[i] := by simp [Vector.getD, h]

/-- A word with a low mask of `m` bits (R22: reserved bits read 0). -/
theorem and_lowMask (v mask : Word) (m : Nat)
    (hm : ∀ i : Fin 32, mask.getLsbD i.val = decide (i.val < m)) (i : Nat) (hi : i < 32) :
    (v &&& mask).getLsbD i = (decide (i < m) && v.getLsbD i) := by
  rw [BitVec.getLsbD_and, hm ⟨i, hi⟩, Bool.and_comm]

/-- CTRL keeps bits 1:0 of what is written (R23). -/
theorem ctrlWord_store (v : Word) (g : Regs) : ctrlWord (storeReg v g .ctrl) = v &&& 0x3 := by
  apply BitVec.eq_of_getLsbD_eq
  intro i hi
  rw [and_lowMask v 0x3 2 (by decide) i hi]
  simp only [ctrlWord, storeReg, BitVec.getLsbD_append, BitVec.getLsbD_ofBool]
  split_ifs with h1 h2
  · obtain rfl : i = 0 := by omega
    simp
  · obtain rfl : i = 1 := by omega
    simp
  · rw [decide_eq_false (by omega), Bool.false_and]
    simp

/-- CONFIG keeps bits 5:0 of what is written (R24). -/
theorem configWord_store (v : Word) (g : Regs) :
    configWord (storeReg v g .config) = v &&& 0x3F := by
  apply BitVec.eq_of_getLsbD_eq
  intro i hi
  rw [and_lowMask v 0x3F 6 (by decide) i hi]
  simp only [configWord, storeReg, BitVec.getLsbD_append, BitVec.getLsbD_extractLsb']
  split_ifs with h1 h2
  · rw [decide_eq_true (by omega), decide_eq_true (by omega), Nat.zero_add]
  · rw [decide_eq_true (by omega), decide_eq_true (by omega), show 4 + (i - 4) = i by omega]
  · rw [decide_eq_false (by omega), Bool.false_and]
    simp

/-- CAND_LEN keeps bits 3:0 of what is written (R29). -/
theorem candLen_store (v : Word) : (v.extractLsb' 0 4).setWidth 32 = v &&& 0xF := by
  apply BitVec.eq_of_getLsbD_eq
  intro i hi
  rw [and_lowMask v 0xF 4 (by decide) i hi]
  simp only [BitVec.getLsbD_setWidth, BitVec.getLsbD_extractLsb', Nat.zero_add]
  rw [decide_eq_true hi, Bool.true_and]

/-- A register of 32 used bits keeps all of what is written. -/
theorem and_fullMask (v : Word) : v &&& 0xFFFFFFFF = v := by
  apply BitVec.eq_of_getLsbD_eq
  intro i hi
  rw [and_lowMask v 0xFFFFFFFF 32 (by decide) i hi, decide_eq_true hi, Bool.true_and]

/-- The fields of the STATUS word (R31). -/
theorem Status.word_fields (st : Status) (busy : Bool) :
    (st.word busy).getLsbD 0 = busy ∧ (st.word busy).getLsbD 1 = st.done ∧
      (st.word busy).getLsbD 2 = st.errBit ∧ (st.word busy).getLsbD 3 = st.matched ∧
      (st.word busy).getLsbD 4 = st.overrun ∧ (st.word busy).extractLsb' 5 3 = 0 ∧
      (st.word busy).extractLsb' 8 4 = st.errCode ∧
      (st.word busy).extractLsb' 12 20 = 0 := by
  obtain ⟨done, err, matched, overrun⟩ := st
  cases done <;> cases matched <;> cases overrun <;> cases busy <;>
    (rcases err with _ | c <;> [skip; cases c]) <;> decide

/-- The fields of the CTRL word (R23). -/
theorem ctrlWord_fields (g : Regs) :
    (ctrlWord g).getLsbD 0 = g.ieDone ∧ (ctrlWord g).getLsbD 1 = g.ieErr := by
  have all : ∀ a b : Bool,
      ((0 : BitVec 30) ++ BitVec.ofBool a ++ BitVec.ofBool b : Word).getLsbD 0 = b ∧
        ((0 : BitVec 30) ++ BitVec.ofBool a ++ BitVec.ofBool b : Word).getLsbD 1 = a := by decide
  exact all g.ieErr g.ieDone

end Sys2Proof.Machine
end

