-- ==== Sys2Proof/Laws/Datapath.lean ====
section
/-! SUPPORT. Laws of the datapaths: the arithmetic behind truncation, rendering, comparison and the time step, and
what an accepted command starts from. -/

namespace Sys2Proof.Machine

/-! ### Truncation (R100) and rendering (R101) -/

/-- Masking with 0x0F keeps the low four bits. -/
theorem and_0F_toNat (b : Byte) : (b &&& 0x0F).toNat = b.toNat % 16 := by
  rw [BitVec.toNat_and]
  exact Nat.and_two_pow_sub_one_eq_mod b.toNat 4

/-- Masking with 0x7F keeps the low seven bits. -/
theorem and_7F_toNat (b : Byte) : (b &&& 0x7F).toNat = b.toNat % 128 := by
  rw [BitVec.toNat_and]
  exact Nat.and_two_pow_sub_one_eq_mod b.toNat 7

/-- Four bytes joined by shifts are four bytes summed by place value. -/
theorem or_of_four_bytes (a b c e : Nat) (hb : b < 256) (hc : c < 256) (he : e < 256) :
    a <<< 24 ||| b <<< 16 ||| c <<< 8 ||| e = a * 2 ^ 24 + b * 2 ^ 16 + c * 2 ^ 8 + e := by
  have h1 : a <<< 24 ||| b <<< 16 = 2 ^ 16 * (a * 2 ^ 8 + b) := by
    rw [Nat.shiftLeft_eq, Nat.shiftLeft_eq, Nat.mul_comm a,
      ← Nat.two_pow_add_eq_or_of_lt (by omega)]
    ring
  have h2 : 2 ^ 16 * (a * 2 ^ 8 + b) ||| c <<< 8 = 2 ^ 8 * (a * 2 ^ 16 + b * 2 ^ 8 + c) := by
    rw [Nat.shiftLeft_eq, ← Nat.two_pow_add_eq_or_of_lt (by omega)]
    ring
  rw [h1, h2, ← Nat.two_pow_add_eq_or_of_lt he]
  ring

/-- A character of the rendering does not wrap in its byte. -/
theorem decChar_toNat (code digits i : Nat) :
    (decChar code digits i).toNat = 0x30 + code / 10 ^ (digits - 1 - i) % 10 := by
  unfold decChar
  rw [BitVec.toNat_ofNat]
  have := Nat.mod_lt (code / 10 ^ (digits - 1 - i)) (show 10 > 0 by omega)
  omega

/-- Copying the first D characters of a buffer gives the string they were set from. -/
theorem codeChars_setChars (v : Vector Byte 10) (digits : Nat) (str : List Byte) :
    codeChars digits (setChars v digits str).toList = codeChars digits str := by
  unfold codeChars
  apply Vector.ext
  intro i hi
  simp only [setChars, Vector.getElem_ofFn]
  split_ifs with h
  · rw [List.getD_eq_getElem _ _ (by simpa using hi), Vector.getElem_toList]
    simp [h]
  · rfl

/-- The cleared code registers render the empty string. -/
theorem renders_cleared : Renders 0 (Vector.replicate 10 0) 0 :=
  ⟨by omega, by decide, by decide⟩

/-! ### Comparison (R120) and the time step (R140) -/

/-- Combining every position with AND is asking it of every position. -/
theorem foldl_and (f : Nat → Bool) (l : List Nat) (b : Bool) :
    l.foldl (fun eq i => eq && f i) b = (b && l.all f) := by
  induction l generalizing b with
  | nil => simp
  | cons a l ih => simp [ih, Bool.and_assoc]

/-- The quotient fits in its 64 bits. -/
theorem timeStep_toNat (tm : DWord) (secs : Word) :
    (timeStep tm secs).toNat = tm.toNat / secs.toNat := by
  unfold timeStep
  rw [BitVec.toNat_ofNat, Nat.mod_eq_of_lt (lt_of_le_of_lt (Nat.div_le_self _ _) tm.isLt)]

/-- A list is what its entries by index are. -/
theorem map_getD_range (l : List Int) :
    (List.range l.length).map (fun k => l.getD k 0) = l := by
  apply List.ext_getElem
  · simp
  · intro i h1 h2
    simp [List.getD, h2]

/-! ### Acceptance (R170) -/

/-- A command that no check rejects is accepted. -/
theorem exec_accepts {i : Instr} {s : State} (hb : s.busy = false)
    (hl : i = .zeroize ∨ s.regs.legal)
    (ho : windowOverflows i (snapFor i s) (baseFor i s) = false) :
    exec i s =
      .next (accept (snapFor i s) (baseFor i s) { s with env := (sampleTime i s).2 }) := by
  rw [exec_eq, issueCommand_idle hb]
  simp [decideCommand, configError_eq_none_iff.2 hl, ho]

/-- A legal configuration selects its algorithm whatever the latch held. -/
theorem algOfBits_of_legal {g : Regs} (h : g.legal) (old : Alg) :
    (algOfBits g.algSel).getD old = g.alg := by
  have h3 := h.2.2.1
  unfold Regs.alg
  generalize g.algSel = b at *
  revert h3 b
  cases old <;> decide

/-! ### Running commands -/

/-- `Running` looks at the snapshot, the scan state, the phase, the request and the history only. -/
theorem running_congr {i : Instr} {s t : State} (r : Running i s) (h1 : t.snap = s.snap)
    (h2 : t.scan = s.scan) (h3 : t.phase = s.phase) (h4 : t.port.req = s.port.req)
    (h5 : t.history = s.history) : Running i t := by
  have hc := requestCount_congr (s := s) (t := t) i h1 (by rw [h2])
  have hk := candidate_congr (s := s) (t := t) i h1 (by rw [h2])
  have hs : sentRequests t = sentRequests s := by simp [sentRequests, h2, h3]
  obtain ⟨a, b, c, d, e, f, g, h, j, k, l⟩ := r
  constructor
  · rw [h1]; exact a
  · rw [h1, h2]; exact b
  · rw [h1, h2]; exact c
  · rw [h2, hc]; exact d
  · rw [h3, h2, hc, h4, h1, hk]; exact e
  · rw [h3, h2, hc]; exact f
  · rw [h3, h2, hc]; exact g
  · rw [h2]; simpa only [hk] using h
  · rw [h5, hs, h1]; simpa only [hk] using j
  · rw [h2]; exact k
  · rw [h2, h1]; exact l

end Sys2Proof.Machine
end

