-- ==== Sys2Proof/Laws/Frame.lean ====
section
/-! SUPPORT. What the steps of a running command do not look at: the world outside and the registers the host
writes. Each law says that replacing these parts before a step is the same as replacing them after. -/

namespace Sys2Proof.Machine

/-- The state with the world outside and the registers the host writes replaced. -/
def State.replaced (s : State) (e : Env) (g : Regs) : State := { s with env := e, regs := g }

theorem compareCode_replaced (ctr : DWord) (off : Int) (s : State) (e : Env) (g : Regs) :
    compareCode ctr off (s.replaced e g) = (compareCode ctr off s).replaced e g := by
  simp only [compareCode_eq]
  split_ifs <;> first | rfl | contradiction

/-- `OnDigest` looks at neither (R41). -/
theorem onDigest_replaced (i : Instr) (ctr : DWord) (off : Int) (s : State) (e : Env)
    (g : Regs) : onDigest i ctr off (s.replaced e g) = (onDigest i ctr off s).replaced e g := by
  cases i <;> first | rfl | exact compareCode_replaced ctr off s e g

/-- `Complete` looks at neither, but for ZEROIZE, which clears registers (R41, R160). -/
theorem complete_replaced {i : Instr} (hz : i ≠ .zeroize) (s : State) (e : Env) (g : Regs) :
    complete i (s.replaced e g) = (complete i s).replaced e g := by
  cases hf : s.scan.fail <;> cases i <;>
    simp_all [complete, completeHotpGen, completeTotpGen, completeHotpVer, completeTotpVer,
      completeTrunc, completeT2c, State.replaced] <;> rfl

theorem issueStep_replaced (i : Instr) (s : State) (e : Env) (g : Regs) :
    issueStep i (s.replaced e g) = (issueStep i s).replaced e g := by
  have hc := requestCount_congr (s := s) (t := s.replaced e g) i rfl rfl
  have hk := candidate_congr (s := s) (t := s.replaced e g) i rfl rfl
  simp only [issueStep, hc, hk]
  by_cases h : s.scan.k < requestCount i s
  · rw [if_pos h, if_pos (show (s.replaced e g).scan.k < requestCount i s from h)]; rfl
  · rw [if_neg h, if_neg (show ¬(s.replaced e g).scan.k < requestCount i s from h)]; rfl

theorem waitStep_replaced (i : Instr) (r : Answer) (s : State) (e : Env) (g : Regs) :
    waitStep i r (s.replaced e g) = (waitStep i r s).replaced e g := by
  cases r with
  | fail => rfl
  | ok d =>
    simp only [waitStep, candidate_congr (s := s) (t := s.replaced e g) i rfl rfl]
    rw [show takeDigest d (s.replaced e g) = (takeDigest d s).replaced e g from rfl,
      onDigest_replaced]
    rfl

/-- A step of a running command that does not complete ZEROIZE looks at neither. -/
theorem commandStep_replaced {i : Instr} {s : State} (hz : s.phase = .finish → i ≠ .zeroize)
    (e : Env) (g : Regs) :
    commandStep i (s.replaced e g) = (commandStep i s).replaced e g := by
  obtain ⟨p, hp⟩ : ∃ p, s.phase = p := ⟨_, rfl⟩
  have hp' : (s.replaced e g).phase = p := hp
  cases p with
  | idle => rw [commandStep_idle hp, commandStep_idle hp']
  | issue => rw [commandStep_issue hp, commandStep_issue hp', issueStep_replaced]
  | wait =>
    obtain ⟨r, hr⟩ : ∃ r, s.port.rsp = r := ⟨_, rfl⟩
    have hr' : (s.replaced e g).port.rsp = r := hr
    cases r with
    | none => rw [commandStep_wait_none hp hr, commandStep_wait_none hp' hr']
    | some r => rw [commandStep_wait_some hp hr, commandStep_wait_some hp' hr', waitStep_replaced]
  | finish => rw [commandStep_finish hp, commandStep_finish hp', complete_replaced (hz hp)]

/-- The completion of ZEROIZE looks at the registers the host writes only to clear the buffers (R160). -/
theorem completeZeroize_replaced (s : State) (e : Env) (g : Regs) :
    complete .zeroize (s.replaced e g) = (complete .zeroize s).replaced e
      { g with dbuf := Vector.replicate 64 0, cand := Vector.replicate 10 0, candLen := 0 } := rfl

/-- A step of any running command looks at the registers the host writes at most to clear the buffers. -/
theorem commandStep_replaced_cases (i : Instr) (s : State) (e : Env) (g : Regs) :
    ∃ g', commandStep i (s.replaced e g) = (commandStep i s).replaced e g' ∧
      (i ≠ .zeroize → g' = g) ∧
      (g' = g ∨ g' = { g with
        dbuf := Vector.replicate 64 0, cand := Vector.replicate 10 0, candLen := 0 }) := by
  by_cases hz : s.phase = .finish → i ≠ .zeroize
  · exact ⟨g, commandStep_replaced hz e g, fun _ => rfl, .inl rfl⟩
  · simp only [Classical.not_imp, ne_eq, not_not] at hz
    obtain ⟨hp, rfl⟩ := hz
    have hp' : (s.replaced e g).phase = .finish := hp
    refine ⟨_, ?_, fun h => absurd rfl h, .inr rfl⟩
    rw [commandStep_finish hp, commandStep_finish hp', completeZeroize_replaced]

/-- No step of a running command moves the world outside. -/
theorem commandStep_env (i : Instr) (s : State) : (commandStep i s).env = s.env := by
  obtain ⟨g, h, _⟩ := commandStep_replaced_cases i s s.env s.regs
  exact (congrArg State.env h).trans rfl

/-- No step of a running command other than ZEROIZE writes the registers the host writes. -/
theorem commandStep_regs {i : Instr} (hz : i ≠ .zeroize) (s : State) :
    (commandStep i s).regs = s.regs := by
  have h := commandStep_replaced (i := i) (s := s) (fun _ => hz) s.env s.regs
  exact (congrArg State.regs h).trans rfl

/-- A step of any running command is the same under another world outside. -/
theorem commandStep_withEnv (i : Instr) (s : State) (e : Env) :
    commandStep i { s with env := e } = { commandStep i s with env := e } := by
  by_cases hz : s.phase = .finish → i ≠ .zeroize
  · have h := commandStep_replaced hz e s.regs
    have h0 := commandStep_replaced hz s.env s.regs
    have hr : (commandStep i s).regs = s.regs := (congrArg State.regs h0).trans rfl
    refine h.trans ?_
    rw [State.replaced, ← hr]
  · simp only [Classical.not_imp, ne_eq, not_not] at hz
    obtain ⟨hp, rfl⟩ := hz
    have hp' : ({ s with env := e } : State).phase = .finish := hp
    rw [commandStep_finish hp, commandStep_finish hp']
    rfl

end Sys2Proof.Machine
end

