-- ==== Sys2Proof/Laws/PerInstr.lean ====
section
/-! SUPPORT. Facts about every instruction as syntax, one lemma per constructor. -/

namespace Sys2Proof.Laws.TableRow

/-- The bits of a command's word that its row of the opcode table fixes: every bit but U where U is free (R82),
and what they are (R81, R83). -/
def rowMask : Instr → Word
  | .trunc => 0xFFFFFFFF
  | .t2c _ => 0xFFFFFFEF
  | .hotpGen => 0xFFFFFFFF
  | .totpGen _ => 0xFFFFFFEF
  | .hotpVer => 0xFFFFFFFF
  | .totpVer _ => 0xFFFFFFEF
  | .zeroize => 0xFFFFFFFF

/-- The value of the fixed bits. -/
def rowMatch : Instr → Word
  | .trunc => 0x1
  | .t2c _ => 0x2
  | .hotpGen => 0x3
  | .totpGen _ => 0x4
  | .hotpVer => 0x5
  | .totpVer _ => 0x6
  | .zeroize => 0x7

/-- The word of a command has the fixed bits of its row, its U bit is `useNow`, and it is well formed. -/
def Statement (i : Instr) : Prop :=
  encode i &&& rowMask i = rowMatch i ∧ (encode i).getLsbD 4 = i.useNow ∧
    (CmdFields.ofWord (encode i)).wellFormed = true

theorem trunc : Statement .trunc := by unfold Statement; decide

theorem t2c (useNow : Bool) : Statement (.t2c useNow) := by
  cases useNow <;> unfold Statement <;> decide

theorem hotpGen : Statement .hotpGen := by unfold Statement; decide

theorem totpGen (useNow : Bool) : Statement (.totpGen useNow) := by
  cases useNow <;> unfold Statement <;> decide

theorem hotpVer : Statement .hotpVer := by unfold Statement; decide

theorem totpVer (useNow : Bool) : Statement (.totpVer useNow) := by
  cases useNow <;> unfold Statement <;> decide

theorem zeroize : Statement .zeroize := by unfold Statement; decide

end Sys2Proof.Laws.TableRow
end

