-- ==== Sys2Proof/Laws/Run.lean ====
section
/-! SUPPORT. Laws of runs: the event list is only read by the step, and what a command's turns do from ISSUE to
completion. -/

namespace Sys2Proof.Machine

/-! ### The event list -/

/-- An outcome with its next state changed by `f`. -/
def mapNext (f : State → State) :
    Host.Outcome State Fault Refusal → Host.Outcome State Fault Refusal
  | .next t => .next (f t)
  | .fault r => .fault r
  | .refused r => .refused r

theorem sampleTime_withEvents (i : Instr) (s : State) (es : List Event) :
    sampleTime i (s.withEvents es) =
      ((sampleTime i s).1, { (sampleTime i s).2 with events := es }) := by
  simp only [sampleTime, drawNow, withEvents_env, withEvents_regs]
  split
  · split <;> rfl
  · rfl

theorem decideCommand_withEvents (i : Instr) (s : State) (es : List Event) :
    decideCommand i (s.withEvents es) = (decideCommand i s).withEvents es := by
  have hs : ∀ tm, takeSnapshot i tm (s.withEvents es) = takeSnapshot i tm s := fun _ => rfl
  simp only [decideCommand, withEvents_regs, withEvents_scan, hs, sampleTime_withEvents]
  split
  · rfl
  · split <;> rfl

theorem unlessBusy_withEvents (s : State) (es : List Event) (f : State → State)
    (hf : f (s.withEvents es) = (f s).withEvents es) :
    unlessBusy (s.withEvents es) f = (unlessBusy s f).withEvents es := by
  have hb : (s.withEvents es).busy = s.busy := rfl
  unfold unlessBusy
  rw [hb]
  cases s.busy
  · exact hf
  · rfl

/-- An event does the same whatever events follow it. -/
theorem runEvent_withEvents (e : Event) (s : State) (es : List Event) :
    runEvent e (s.withEvents es) = mapNext (·.withEvents es) (runEvent e s) := by
  cases e with
  | read off => rfl
  | narrow off => rfl
  | reset => rfl
  | provider =>
    simp only [runEvent, mapNext, providerStep, withEvents_port]
    split <;> rfl
  | unit =>
    simp only [runEvent, unitStep, withEvents_phase, withEvents_snap]
    split
    · rfl
    · simp only [mapNext, State.withEvents]
      rw [commandStep_withEnv, commandStep_env]
    · rfl
  | write off v =>
    simp only [runEvent, busWrite]
    split
    · rfl
    · unfold writeReg
      split
      · unfold writeCmd
        split
        · simp only [exec_eq, mapNext, issueCommand]
          rw [unlessBusy_withEvents s es _ (decideCommand_withEvents _ s es)]
        · simp only [mapNext, issueIllegal]
          rw [unlessBusy_withEvents s es _ rfl]
      · rfl
      · rfl

/-! ### The turns of a running command -/

/-- The state with the request of the current candidate sent, and WAIT entered. -/
def requested (i : Instr) (s : State) : State :=
  (hmacRequest s.snap.alg (be64 (candidate i s s.scan.k).1) s).withPhase .wait

/-- One request answered `Ok(d)`: ISSUE, the answer, WAIT. -/
def answered (i : Instr) (d : List Byte) (s : State) : State :=
  (nextIndex (onDigest i (candidate i s s.scan.k).1 (candidate i s s.scan.k).2
    (takeDigest d (requested i s)))).withPhase .issue

theorem runEvent_request {i : Instr} {s : State} (hp : s.phase = .issue)
    (ho : s.snap.op = some i) (hk : s.scan.k < requestCount i s) :
    runEvent .unit s = .next (requested i s) := by
  rw [runEvent, unitStep_running (by simp [hp]) ho, commandStep_issue hp, issueStep, if_pos hk]
  rfl

/-- ISSUE and the provider's answer. -/
theorem runEvents_request {i : Instr} {s : State} {a : Answer} (hp : s.phase = .issue)
    (ho : s.snap.op = some i) (hk : s.scan.k < requestCount i s) (hport : s.port.rsp = none)
    (ha : pHmac s.env s.snap.alg (be64 (candidate i s s.scan.k).1) = a) (es : List Event) :
    runEvents (.unit :: .provider :: es) s =
      runEvents es { requested i s with
        port := { req := (requested i s).port.req, rsp := some a } } := by
  rw [runEvents_cons_next (runEvent_request hp ho hk)]
  refine runEvents_cons_next ?_
  simp [runEvent, providerStep, requested, hport, ha]

/-- The three turns of a request that the provider answers `Ok(d)`. -/
theorem runEvents_request_ok {i : Instr} {s : State} {d : List Byte} (hp : s.phase = .issue)
    (ho : s.snap.op = some i) (hk : s.scan.k < requestCount i s) (hport : s.port.rsp = none)
    (ha : pHmac s.env s.snap.alg (be64 (candidate i s s.scan.k).1) = .ok d) (es : List Event) :
    runEvents (.unit :: .provider :: .unit :: es) s = runEvents es (answered i d s) := by
  rw [runEvents_request hp ho hk hport ha]
  refine runEvents_cons_next ?_
  rw [runEvent, unitStep_running (i := i) (by simp [requested]) (by simpa [requested] using ho),
    commandStep_wait_some (r := .ok d) (by simp [requested]) rfl]
  rfl

/-- The four turns of a request that the provider answers `Fail`: the command completes. -/
theorem runEvents_request_fail {i : Instr} {s : State} (hp : s.phase = .issue)
    (ho : s.snap.op = some i) (hk : s.scan.k < requestCount i s) (hport : s.port.rsp = none)
    (ha : pHmac s.env s.snap.alg (be64 (candidate i s s.scan.k).1) = .fail) :
    runEvents [.unit, .provider, .unit, .unit] s =
      .next (complete i ((takeFail (requested i s)).withPhase .finish)) := by
  rw [runEvents_request hp ho hk hport ha]
  have h : runEvent .unit { requested i s with
      port := { req := (requested i s).port.req, rsp := some .fail } } =
      .next ((takeFail (requested i s)).withPhase .finish) := by
    rw [runEvent, unitStep_running (i := i) (by simp [requested])
      (by simpa [requested] using ho),
      commandStep_wait_some (r := .fail) (by simp [requested]) rfl]
    rfl
  rw [runEvents_cons_next h, runEvents_cons_next (t := complete i _)]
  · rfl
  · rw [runEvent, unitStep_running (i := i) (by simp) (by simpa [requested] using ho),
      commandStep_finish (by simp)]

/-- The last two turns: ISSUE finds the scan at its end, FINISH completes. -/
theorem runEvents_finish {i : Instr} {s : State} (hp : s.phase = .issue)
    (ho : s.snap.op = some i) (hk : requestCount i s ≤ s.scan.k) :
    runEvents [.unit, .unit] s = .next (complete i (s.withPhase .finish)) := by
  have h : runEvent .unit s = .next (s.withPhase .finish) := by
    rw [runEvent, unitStep_running (by simp [hp]) ho, commandStep_issue hp, issueStep,
      if_neg (by omega)]
  rw [runEvents_cons_next h, runEvents_cons_next (t := complete i _)]
  · rfl
  · rw [runEvent, unitStep_running (i := i) (by simp) (by simpa using ho),
      commandStep_finish (by simp)]

/-- The turns of a whole scan, as the requests' turns and then the last two. -/
theorem scanTurns_eq (n : Nat) :
    scanTurns n = (List.replicate n [Event.unit, .provider, .unit]).flatten ++ [.unit, .unit] := by
  induction n with
  | zero => rfl
  | succ n ih => simp [scanTurns, ih, List.replicate_succ]

/-! ### The scan of the verify commands -/

/-- What makes the k-th candidate of a verify command a match, given the digest for it. -/
def hits (s : State) (d : Nat → List Byte) (k : Nat) : Bool :=
  matchCode (codeString (d k) s.snap.digits.toNat) s.snap.digits.toNat s.snap.candLen s.snap.cand

/-- A verify command's state after `k` answered requests, from a state `s` at the start of its scan. -/
def scanned (i : Instr) (s : State) (d : Nat → List Byte) (k : Nat) : State :=
  { s with
    wd := if k = 0 then s.wd else d (k - 1)
    history := s.history ++ (List.range k).map fun j =>
      ⟨s.snap.alg, be64 (candidate i s j).1⟩
    scan := { s.scan with
      k := k
      found := ((List.range k).find? (hits s d)).isSome
      fctr := (((List.range k).find? (hits s d)).map fun j => (candidate i s j).1).getD s.scan.fctr
      foff :=
        (((List.range k).find? (hits s d)).map fun j => (candidate i s j).2).getD s.scan.foff } }

theorem requestCount_scanned (i : Instr) (s : State) (d : Nat → List Byte) (k : Nat) :
    requestCount i (scanned i s d k) = requestCount i s := requestCount_congr i rfl rfl

theorem candidate_scanned (i : Instr) (s : State) (d : Nat → List Byte) (k j : Nat) :
    candidate i (scanned i s d k) j = candidate i s j := candidate_congr i rfl rfl j

/-- One more answered request. -/
theorem answered_scanned {i : Instr} (hv : i = .hotpVer ∨ ∃ u, i = .totpVer u) (s : State)
    (d : Nat → List Byte) (k : Nat) (hp : s.phase = .issue)
    (hport : s.port = { req := none, rsp := none }) :
    answered i (d k) (scanned i s d k) = scanned i s d (k + 1) := by
  have hod : ∀ c o t, onDigest i c o t = compareCode c o t := by
    obtain rfl | ⟨u, rfl⟩ := hv <;> exact fun _ _ _ => rfl
  have hc : ∀ j, candidate i (scanned i s d k) j = candidate i s j := candidate_scanned i s d k
  obtain ⟨regs, status, results, phase, snap, scan, wd, port, history, env⟩ := s
  simp only at hp hport
  subst hp hport
  simp only [answered, hod, hc, compareCode_eq, requested]
  simp only [scanned, List.range_succ, List.map_append, List.find?_append, List.find?_singleton]
  have hh : hits ⟨regs, status, results, .issue, snap, scan, wd, ⟨none, none⟩, history, env⟩ d k =
    matchCode (codeString (d k) snap.digits.toNat) snap.digits.toNat snap.candLen snap.cand := rfl
  cases hf : (List.range k).find?
      (hits ⟨regs, status, results, .issue, snap, scan, wd, ⟨none, none⟩, history, env⟩ d) with
  | some j =>
    simp [takeDigest, hmacRequest, State.withPhase, nextIndex]
  | none =>
    rw [hh]
    split_ifs <;> simp_all [takeDigest, hmacRequest, State.withPhase, nextIndex]

/-- No answered request yet. -/
theorem scanned_zero (i : Instr) (s : State) (d : Nat → List Byte) (hk : s.scan.k = 0)
    (hf : s.scan.found = false) : scanned i s d 0 = s := by
  obtain ⟨regs, status, results, phase, snap, scan, wd, port, history, env⟩ := s
  obtain ⟨base, k, found, fctr, foff, wcode, wchr, fail⟩ := scan
  simp only at hk hf
  subst hk hf
  simp [scanned]

/-- The turns of the first `m` requests of a verify command, each answered Ok. -/
theorem runEvents_scan {i : Instr} (hv : i = .hotpVer ∨ ∃ u, i = .totpVer u) {s : State}
    (d : Nat → List Byte) (hp : s.phase = .issue) (ho : s.snap.op = some i)
    (hport : s.port = { req := none, rsp := none }) (hk : s.scan.k = 0)
    (hf : s.scan.found = false) :
    ∀ m, m ≤ requestCount i s →
      (∀ j < m, pHmac s.env s.snap.alg (be64 (candidate i s j).1) = .ok (d j)) →
      ∀ es, runEvents ((List.replicate m [Event.unit, .provider, .unit]).flatten ++ es) s =
        runEvents es (scanned i s d m)
  | 0, _, _, es => by rw [scanned_zero i s d hk hf]; rfl
  | m + 1, hm, ha, es => by
    have hc : candidate i (scanned i s d m) m = candidate i s m := candidate_scanned i s d m m
    have hn : requestCount i (scanned i s d m) = requestCount i s := requestCount_scanned i s d m
    rw [List.replicate_succ', List.flatten_append, List.append_assoc,
      runEvents_scan hv d hp ho hport hk hf m (by omega) (fun j hj => ha j (by omega))]
    refine (runEvents_request_ok (i := i) (d := d m) (s := scanned i s d m) hp ho
      (by rw [hn]; exact hm) (by simp [scanned, hport]) ?_ es).trans ?_
    · rw [show (scanned i s d m).scan.k = m from rfl, hc]
      exact ha m (by omega)
    · rw [answered_scanned hv s d m hp hport]

end Sys2Proof.Machine
end

