-- ==== Sys2Proof/Tests/Slice0.lean ====
section
/-! SUPPORT. Tests: the well-formedness smoke test, decoding of words written out from 30_encoding.md, one-step tests
whose expected values are the vectors of 95_test_vectors.md, and the witnesses of the statements' hypotheses. -/

namespace Sys2Proof.Tests

open Sys2Proof.Machine

/-! ### Well-formedness (R81 to R83): each check refuses an ill-formed word -/

theorem test_rsvClear_refuses : CmdFields.wellFormed { op := 4, useNow := false, rsv := 1 } = false := by
  decide

theorem test_opAssigned_refuses :
    CmdFields.wellFormed { op := 0, useNow := false, rsv := 0 } = false ∧
      CmdFields.wellFormed { op := 8, useNow := false, rsv := 0 } = false := by decide

theorem test_useNowAllowed_refuses :
    CmdFields.wellFormed { op := 3, useNow := true, rsv := 0 } = false := by decide

theorem test_wellFormed_accepts :
    CmdFields.wellFormed { op := 7, useNow := false, rsv := 0 } = true ∧
      CmdFields.wellFormed { op := 6, useNow := true, rsv := 0 } = true := by decide

/-! ### Decoding (R80, R81, R86): RSV, U, OP written out for every constructor -/

theorem test_decode_trunc : decode (0b000000000000000000000000000_0_0001#32) = .ok .trunc := by rfl
theorem test_decode_t2c : decode (0b000000000000000000000000000_0_0010#32) = .ok (.t2c false) := by rfl
theorem test_decode_t2c_now : decode (0b000000000000000000000000000_1_0010#32) = .ok (.t2c true) := by rfl
theorem test_decode_hotpGen : decode (0b000000000000000000000000000_0_0011#32) = .ok .hotpGen := by rfl
theorem test_decode_totpGen : decode (0b000000000000000000000000000_1_0100#32) = .ok (.totpGen true) := by
  rfl
theorem test_decode_hotpVer : decode (0b000000000000000000000000000_0_0101#32) = .ok .hotpVer := by rfl
theorem test_decode_totpVer : decode (0b000000000000000000000000000_0_0110#32) = .ok (.totpVer false) := by
  rfl
theorem test_decode_zeroize : decode (0b000000000000000000000000000_0_0111#32) = .ok .zeroize := by rfl

/-- V7 l, m, o, r, s. -/
theorem test_decode_illegal :
    decode 0x00000000 = .error .reservedOpcode ∧ decode 0x00000008 = .error .reservedOpcode ∧
      decode 0x00000013 = .error .useNowNotAllowed ∧ decode 0x00000024 = .error .reservedBits ∧
      decode 0x80000003 = .error .reservedBits := by decide

theorem test_encode_totpVer_now : encode (.totpVer true) = 0x00000016 := by decide

/-! ### Helpers -/

/-- The `len` bytes of a number written as a big-endian hexadecimal string. -/
def hex (n len : Nat) : List Byte :=
  (List.range len).map fun i => BitVec.ofNat 8 (n / 256 ^ (len - 1 - i))

/-- The digest buffer with the given first bytes. -/
def buffer (d : List Byte) : Vector Byte 64 := Vector.ofFn fun i => d.getD i.val 0

/-- A candidate's characters. -/
def chars (d : List Byte) : Vector Byte 10 := Vector.ofFn fun i => d.getD i.val 0

/-- The register file after reset with changes. -/
def withRegs (f : Regs → Regs) : State := { State.reset with regs := f State.reset.regs }

/-- A command latched by an otherwise reset unit, in a phase. -/
def latched (i : Instr) (p : Phase) (f : Snap → Snap) (g : Scan → Scan) : State :=
  { State.reset with
    phase := p
    snap := f { Snap.reset with op := some i, digits := 6, stepSecs := 30 }
    scan := g Scan.reset }

/-- A latched command in WAIT with an answer on the port. -/
def answeredWith (i : Instr) (a : Answer) (f : Snap → Snap) (g : Scan → Scan) : State :=
  { latched i .wait f g with port := { req := some ⟨.sha1, be64 0⟩, rsp := some a } }

/-- The part of the next state a test looks at. -/
def look {α : Type} (f : State → α) : Host.Outcome State Fault Refusal → Option α
  | .next t => some (f t)
  | .fault _ => none
  | .refused _ => none

/-- The digests of V1 for the counters 0 to 3. -/
def d0 : List Byte := hex 0xcc93cf18508d94934c64b65d8ba7667fb7cde4b0 20
def d1 : List Byte := hex 0x75a48a19d4cbe100644e8ac1397eea747a2d33ab 20
def d2 : List Byte := hex 0x0bacb7fa082fef30782211938bc1c5e70416ff44 20
def d3 : List Byte := hex 0x66c28227d03a2d5529262ff016a1e6ef76557ece 20

/-! ### TRUNC (V5) -/

/-- V5 b, at its FINISH step. -/
theorem test_trunc_row_b :
    look (fun t => (busRead 0x40 t, busRead 0x44 t, busRead 0x48 t, busRead 0x04 t))
      (unitStep (latched .trunc .finish
        (fun sn => { sn with dig := buffer (hex 0x1f8698690e02ca16618550ef7f19da8e945b555a 20) }) id)) =
      some (0x000D51D9, 0x38373239, 0x32310000, 0x00000002) := by decide

/-- V5 g: the last byte is the algorithm's, not the 20th. -/
theorem test_trunc_row_g :
    look (fun t => (busRead 0x40 t, busRead 0x44 t, busRead 0x48 t))
      (unitStep (latched .trunc .finish
        (fun sn => { sn with alg := .sha256, dig := buffer (hex 0x80000001 4 ++ List.replicate 15 0 ++ [0x0F]) })
        id)) = some (0x00000001, 0x30303030, 0x30310000) := by decide

/-! ### T2C (V6) -/

/-- V6, Tm = 2^64 - 1 and S = 30, at its FINISH step. -/
theorem test_t2c_top :
    look (fun t => (busRead 0x3C t, busRead 0x38 t))
      (unitStep (latched (.t2c false) .finish (fun sn => { sn with time := 0xFFFFFFFFFFFFFFFF }) id)) =
      some (0x08888888, 0x88888888) := by decide

/-- R82: U = 1 latches the time input and not TIME. -/
theorem test_t2c_now_samples :
    look (fun t => (t.snap.time, t.env.nowInput))
      (exec (.t2c true)
        { withRegs (fun g => { g with timeLo := 7 }) with env := { Env.reset with nowInput := [89, 90] } }) =
      some (89, [90]) := by decide

/-! ### HOTP_GEN (V2, V4) -/

/-- V2: the WAIT step that takes the digest of counter 1. -/
theorem test_hotpGen_wait :
    look (fun t => (t.scan.wcode, t.scan.k, t.phase, t.port.req))
      (unitStep (answeredWith .hotpGen (.ok d1) id id)) = some (287082, 1, .issue, none) := by decide

/-- V4, C = 2^64 - 1: the message of the ISSUE step. -/
theorem test_hotpGen_issue :
    look (fun t => t.history)
      (unitStep (latched .hotpGen .issue (fun sn => { sn with counter := 0xFFFFFFFFFFFFFFFF }) id)) =
      some [⟨.sha1, #v[0xFF, 0xFF, 0xFF, 0xFF, 0xFF, 0xFF, 0xFF, 0xFF]⟩] := by decide

/-! ### TOTP_GEN (V10, V12) -/

/-- V12: the SHA-256 digest's last byte is byte 31. -/
theorem test_totpGen_wait :
    look (fun t => t.scan.wcode)
      (unitStep (answeredWith (.totpGen false)
        (.ok (hex 0x392514c9dd4165d4709456062c78e04e16e68718515951333bdb8b26caa3053c 32))
        (fun sn => { sn with digits := 8, alg := .sha256 }) id)) = some 46119246 := by decide

/-- V10: the time step computed at acceptance. -/
theorem test_totpGen_accepts :
    look (fun t => (t.scan.base, t.phase, busRead 0x04 t))
      (exec (.totpGen false) (withRegs fun g => { g with digits := 8, timeLo := 59 })) =
      some (1, .issue, 0x00000001) := by decide

/-! ### HOTP_VER (V7, V14) -/

/-- V14 a: the WAIT step of counter 2, which matches "359152". -/
theorem test_hotpVer_wait :
    look (fun t => (t.scan.found, t.scan.fctr, t.scan.foff))
      (unitStep (answeredWith .hotpVer (.ok d2)
        (fun sn => { sn with window := 2, candLen := 6, cand := chars (hex 0x333539313532 6) })
        (fun sc => { sc with k := 2 }))) = some (true, 2, 2) := by decide

/-- V7 h: CFG_OVERFLOW. -/
theorem test_hotpVer_overflow :
    look (fun t => (busRead 0x04 t, t.phase))
      (exec .hotpVer (withRegs fun g =>
        { g with counterHi := 0xFFFFFFFF, counterLo := 0xFFFFFFFF, window := 1 })) =
      some (0x00000406, .idle) := by decide

/-! ### TOTP_VER (V15) -/

/-- V15 f: T = 1 and W = 3 ask for 1, 0, 2, 3, 4. -/
theorem test_totpVer_order : (totpIndices 1 3).map (fun j => 1 + offsetOrder j) = [1, 0, 2, 3, 4] := by
  decide

/-- V15 a: the FINISH step reports the offset -1. -/
theorem test_totpVer_finish :
    look (fun t => (busRead 0x04 t, busRead 0x50 t, busRead 0x5C t, busRead 0x58 t, busRead 0x38 t))
      (unitStep (latched (.totpVer false) .finish (fun sn => { sn with window := 1 })
        (fun sc => { sc with base := 2, k := 3, found := true, fctr := 1, foff := -1 }))) =
      some (0x0000000A, 1, 0xFFFFFFFF, 0xFFFFFFFF, 2) := by decide

/-! ### ZEROIZE (V7 u, V9) -/

/-- V9: what the FINISH step clears and keeps. -/
theorem test_zeroize_finish :
    look (fun t => (busRead 0x40 t, busRead 0x2C t, busRead 0x14 t, busRead 0x04 t, t.regs.dbuf))
      (unitStep { latched .zeroize .finish id id with
        regs := { Regs.reset with window := 3, candLen := 6, cand := chars (hex 0x32383730 4), dbuf := buffer d1 }
        results := { Results.reset with codeNum := 287082 }
        status := { Status.reset with overrun := true } }) =
      some (0, 0, 3, 0x00000012, Vector.replicate 64 0) := by decide

/-- V7 u: ZEROIZE is accepted with DIGITS = 0 and STEP = 0. -/
theorem test_zeroize_accepts :
    look (fun t => (t.phase, busRead 0x04 t))
      (exec .zeroize (withRegs fun g => { g with digits := 0, stepSecs := 0 })) =
      some (.issue, 0x00000001) := by decide

/-! ### Witnesses

For every statement with hypotheses, concrete states and operands that meet all of them together. -/

/-- `P_HMAC` for the counters 0 to 3, from V1, and counter 4 answering Fail. -/
def knownAnswers : List AnswerRow :=
  [⟨.sha1, be64 0, .ok d0⟩, ⟨.sha1, be64 1, .ok d1⟩, ⟨.sha1, be64 2, .ok d2⟩, ⟨.sha1, be64 3, .ok d3⟩,
   ⟨.sha1, be64 4, .fail⟩]

/-- An idle unit with known answers and a time waiting. -/
def idleUnit (f : Regs → Regs) : State :=
  { withRegs f with env := { Env.reset with answers := knownAnswers, nowInput := [89] } }

/-- A HOTP_VER in WAIT for its second counter, its first having matched. -/
def runningUnit : State :=
  { latched .hotpVer .wait (fun sn => { sn with window := 2, candLen := 6, cand := chars (hex 0x373535323234 6) })
      (fun sc => { sc with k := 1, found := true }) with
    wd := d0
    port := { req := some ⟨.sha1, be64 1⟩, rsp := none }
    history := [⟨.sha1, be64 0⟩, ⟨.sha1, be64 1⟩] }

theorem reset_legal : State.reset.regs.legal := by unfold Regs.legal; decide

theorem runningUnit_running : Running .hotpVer runningUnit where
  legal := by decide
  base := by decide
  noOverflow := by decide
  index := by decide
  waiting := by decide
  finished := by decide
  failed := by decide
  found := fun _ => ⟨0, by decide, by decide, by decide⟩
  requested := ⟨[], by decide⟩
  unworked := by decide
  workCode := by rintro (h | ⟨u, h⟩) <;> cases h

theorem runningUnit_inv : runningUnit.Inv where
  request := by decide
  response := by decide
  digest := by intro r d _ h; cases h
  wd := by decide
  busyFlags := by decide
  matched := fun h => absurd h (by decide)
  code := ⟨0, by unfold Renders; decide⟩
  running := fun _ => ⟨.hotpVer, rfl, runningUnit_running⟩

theorem witness_DecodeInvertsEncode : decode 0x16 = .ok (.totpVer true) ∧ encode (.totpVer true) = 0x16 := by
  decide

theorem witness_DecodeIsTotal :
    decode 0x13 = .error .useNowNotAllowed ∧ decode 0x12 = .ok (.t2c true) ∧ State.reset.busy = false := by
  decide

theorem witness_StepRunsDecodedCommand :
    decode 0x3 = .ok .hotpGen ∧
      (State.reset.withEvents [.write 0x08 0x3, .unit]).env.events = .write 0x08 0x3 :: [.unit] := by decide

theorem witness_BusPrimitivesNeverFail : 0xA0 ≤ (0xA0 : BitVec 8).toNat ∧ 0xA0 ≤ (0xFF : BitVec 8).toNat := by
  decide

theorem witness_WrittenRegisterReadsBack : (0x37 : BitVec 8).toNat / 4 = (0x34 : BitVec 8).toNat / 4 ∧
    (0x38 : BitVec 8).toNat / 4 ≠ (0x34 : BitVec 8).toNat / 4 := by decide

theorem witness_ReadOnlyWritesIgnored :
    (0x38 ≤ (0x38 : BitVec 8).toNat ∧ (0x38 : BitVec 8).toNat < 0x60) ∧
      (0x38 ≤ (0x5F : BitVec 8).toNat ∧ (0x5F : BitVec 8).toNat < 0x60) := by decide

theorem witness_StatusWriteOneToClear :
    runningUnit.Inv ∧ runningUnit.busy = true ∧ (0x6 : Word).getLsbD 4 = false :=
  ⟨runningUnit_inv, by decide, by decide⟩

/-- A unit that asks for an interrupt, a STATUS write that clears both flags, a CTRL write that disables both. -/
theorem witness_InterruptLevel :
    irq { withRegs (fun g => { g with ieDone := true }) with status := { Status.reset with done := true } } = true ∧
      ((0x6 : Word).getLsbD 1 = true ∧ (0x6 : Word).getLsbD 2 = true ∧
        busWrite 0x04 0x6 State.reset = .next State.reset) ∧
      ((0x4 : Word).getLsbD 0 = false ∧ (0x4 : Word).getLsbD 1 = false ∧
        busWrite 0x00 0x4 State.reset = .next State.reset) :=
  ⟨by decide, ⟨by decide, by decide, rfl⟩, ⟨by decide, by decide, rfl⟩⟩

/-- The window's first and last address, and the addresses beside it. -/
theorem witness_WindowAtPlatformBase :
    windowOffset 4096 4096 = some 0 ∧ windowOffset 4096 4351 = some 0xFF ∧ windowOffset 4096 4095 = none ∧
      windowOffset 4096 4352 = none := by decide

/-- A busy unit, and an OVERRUN that a write clears and that reset clears. -/
theorem witness_BusyCommandIsDropped :
    runningUnit.busy = true ∧
      look (fun t => t.status.overrun)
        (runEvent (.write 0x07 0x10) { State.reset with status := { Status.reset with overrun := true } }) =
        some false ∧
      look (fun t => t.status.overrun)
        (runEvent .reset { State.reset with status := { Status.reset with overrun := true } }) = some false := by
  decide

/-- Every clause: busy; illegal; DIGITS 0 and 11; ALG 3; STEP 0; overflow by one; the last window that fits. -/
theorem witness_ErrorPriority :
    runningUnit.busy = true ∧ State.reset.busy = false ∧ decode 0x0 = .error .reservedOpcode ∧
      decode 0x5 = .ok .hotpVer ∧
      ¬(1 ≤ (0 : BitVec 4).toNat ∧ (0 : BitVec 4).toNat ≤ 10) ∧
      ¬(1 ≤ (11 : BitVec 4).toNat ∧ (11 : BitVec 4).toNat ≤ 10) ∧
      (withRegs fun g => { g with algSel := 3 }).regs.algSel = 3 ∧
      (withRegs fun g => { g with stepSecs := 0 }).regs.stepSecs = 0 ∧
      windowOverflows .hotpVer
        (takeSnapshot .hotpVer 0 (withRegs fun g =>
          { g with counterHi := 0xFFFFFFFF, counterLo := 0xFFFFFFFE, window := 2 })) 0 = true ∧
      windowOverflows .hotpVer
        (takeSnapshot .hotpVer 0 (withRegs fun g =>
          { g with counterHi := 0xFFFFFFFF, counterLo := 0xFFFFFFFE, window := 1 })) 0 = false := by decide

/-- A rejected and an accepted command. -/
theorem witness_RejectionWritesStatusOnly :
    State.reset.busy = false ∧
      look (fun t => t.phase) (exec .trunc (withRegs fun g => { g with digits := 11 })) = some .idle ∧
      look (fun t => t.phase) (exec .trunc (withRegs fun g => { g with digits := 10 })) = some .issue := by
  decide

/-- C + W at 2^64 and at 2^64 - 1 (V7 i and its note). -/
theorem witness_OverflowCheck :
    State.reset.busy = false ∧ State.reset.regs.legal ∧
      (0xFFFFFFFFFFFFFFFE : DWord).toNat + (2 : Word).toNat > 2 ^ 64 - 1 ∧
      ¬(0xFFFFFFFFFFFFFFFE : DWord).toNat + (1 : Word).toNat > 2 ^ 64 - 1 :=
  ⟨by decide, reset_legal, by decide, by decide⟩

/-- For ZEROIZE on an illegal configuration, and for the verify commands at the top of the window. -/
theorem witness_AcceptanceLatchesOperands :
    (withRegs fun g => { g with digits := 0 }).busy = false ∧ State.reset.regs.legal ∧
      (idleUnit id).busy = false ∧ drawNow (idleUnit id).env = (89, { (idleUnit id).env with nowInput := [] }) ∧
      (0xFFFFFFFFFFFFFFFE : DWord).toNat + (1 : Word).toNat ≤ 2 ^ 64 - 1 ∧
      (89 : DWord).toNat / (30 : Word).toNat + (0xFFFFFFFF : Word).toNat ≤ 2 ^ 64 - 1 :=
  ⟨by decide, reset_legal, by decide, by decide, by decide, by decide⟩

/-- A turn that leaves the registers, and the completion of ZEROIZE, which clears them. -/
theorem witness_RunningCommandIgnoresRegisters :
    (runEvent .unit runningUnit = .next runningUnit ∧ runningUnit.phase ≠ .finish) ∧
      (latched .zeroize .finish id id).phase = .finish ∧
      (latched .zeroize .finish id id).snap.op = some .zeroize ∧
      look (fun t => t.phase) (runEvent .unit (latched .zeroize .finish id id)) = some .idle :=
  ⟨⟨rfl, by decide⟩, rfl, rfl, by decide⟩

theorem witness_IdleUnitRests : State.reset.phase = .idle ∧ State.reset.port.req = none := by decide

/-- An unanswered request, an answered one, an Ok answer, and a step. -/
theorem witness_ProviderAnswersRequest :
    (runningUnit.port.req = some ⟨.sha1, be64 1⟩ ∧ runningUnit.port.rsp = none) ∧
      (answeredWith .hotpGen (.ok d1) id id).port.rsp = some (.ok d1) ∧
      pHmac (idleUnit id).env .sha1 (be64 1) = .ok d1 ∧
      look (fun t => t.env.answers) (runEvent (.write 0x08 0x3) (idleUnit id)) = some knownAnswers := by
  decide

theorem witness_HistoryRecordsRequests :
    look (fun t => t.phase) (runEvent .unit (latched .hotpGen .issue id id)) = some .wait := by decide

theorem witness_SilentProviderHangs :
    runningUnit.phase = .wait ∧ runningUnit.port.rsp = none ∧
      look (fun t => t.status.overrun) (runEvents [.unit, .write 0x08 0x7] runningUnit) = some true := by decide

/-- An acceptance that draws, a TOTP_VER.NOW that draws and overflows (the last second at S = 1), and both kinds of draw. -/
theorem witness_TimeSampledAtAcceptance :
    look (fun t => (t.env.nowInput, t.phase)) (runEvent (.write 0x0B 0x12) (idleUnit id)) =
        some ([], .issue) ∧
      look (fun t => (t.env.nowInput, t.status.err)) (runEvent (.write 0x08 0x16)
        { withRegs (fun g => { g with stepSecs := 1, window := 1 }) with
          env := { Env.reset with nowInput := [0xFFFFFFFFFFFFFFFF] } }) = some ([], some .cfgOverflow) ∧
      look (fun t => t.env.nowInput) (runEvent (.write 0x08 0x12)
        (idleUnit fun g => { g with stepSecs := 0 })) = some [89] ∧
      (idleUnit id).env.nowInput = [89] ∧ State.reset.env.nowInput = [] := by decide

theorem witness_TruncationArithmetic :
    d1.length = 20 ∧ (hex 0 32).length = 32 ∧ (hex 0 64).length = 64 ∧ 1 ≤ 1 ∧ 1 ≤ 10 ∧ 10 ≤ 10 := by decide

/-- V2's digest and the same with its first byte changed. -/
theorem witness_TruncationReadsFiveBytes :
    d1.length = 20 ∧ (0xFF :: d1.tail).length = d1.length ∧ 0xFF :: d1.tail ≠ d1 ∧
      ((0xFF :: d1.tail).getD (d1.length - 1) 0).toNat % 16 = (d1.getD (d1.length - 1) 0).toNat % 16 ∧
      ∀ j < 4, (0xFF :: d1.tail).getD ((d1.getD (d1.length - 1) 0).toNat % 16 + j) 0 =
        d1.getD ((d1.getD (d1.length - 1) 0).toNat % 16 + j) 0 := by decide

theorem witness_CodeBound : 1 ≤ 1 ∧ 10 ≤ 10 ∧ truncCode d2 10 = 0x082FEF30 := by decide

/-- V4: "0137359152" and the largest one-digit code. -/
theorem witness_DecimalRendering :
    137359152 < 10 ^ 10 ∧ 9 < 10 ^ 1 ∧ dec 137359152 10 = hex 0x30313337333539313532 10 := by decide

theorem witness_MatchIsStringEquality :
    10 ≤ 10 ∧ matchCode (hex 0x323837303832 6) 6 6 (chars (hex 0x323837303832 6)) = true ∧
      matchCode (hex 0x323837303832 6) 6 7 (chars (hex 0x323837303832 6)) = false := by decide

theorem witness_TimeStepIsFloor : 1 ≤ (1 : Word).toNat ∧ timeStep 0xFFFFFFFFFFFFFFFF 1 = 0xFFFFFFFFFFFFFFFF := by
  decide

theorem witness_TruncCompletes : State.reset.busy = false ∧ State.reset.regs.legal :=
  ⟨by decide, reset_legal⟩

theorem witness_TimeToCounterCompletes : (idleUnit id).busy = false ∧ (idleUnit id).regs.legal :=
  ⟨by decide, reset_legal⟩

/-- V2. -/
theorem witness_HotpGenCompletes :
    let s := idleUnit fun g => { g with counterLo := 1 }
    s.busy = false ∧ s.regs.legal ∧ s.port = { req := none, rsp := none } ∧
      pHmac s.env s.regs.alg (be64 (s.regs.counterHi ++ s.regs.counterLo)) = .ok d1 :=
  ⟨by decide, reset_legal, by decide, by decide⟩

/-- V10 with the time input at 89 (T = 2), and V10 itself (T = 1). -/
theorem witness_TotpGenCompletes :
    let s := idleUnit fun g => { g with timeLo := 59 }
    s.busy = false ∧ s.regs.legal ∧ s.port = { req := none, rsp := none } ∧
      timeStep (drawNow s.env).1 s.regs.stepSecs = 2 ∧ pHmac s.env s.regs.alg (be64 2) = .ok d2 ∧
      timeStep (s.regs.timeHi ++ s.regs.timeLo) s.regs.stepSecs = 1 ∧
      pHmac s.env s.regs.alg (be64 1) = .ok d1 :=
  ⟨by decide, reset_legal, by decide, by decide, by decide, by decide, by decide⟩

theorem witness_TotpCodeIsHotpCode :
    let s := idleUnit fun g => { g with timeLo := 59 }
    s.busy = false ∧ s.regs.legal ∧ s.port = { req := none, rsp := none } ∧
      pHmac s.env s.regs.alg (be64 (timeStep (timeValue s.regs) s.regs.stepSecs)) = .ok d1 :=
  ⟨by decide, reset_legal, by decide, by decide⟩

/-- V14 a: C = 0, W = 2, candidate "359152". -/
theorem witness_HotpVerScansWindow :
    let s := idleUnit fun g => { g with window := 2, candLen := 6, cand := chars (hex 0x333539313532 6) }
    s.busy = false ∧ s.regs.legal ∧ s.port = { req := none, rsp := none } ∧
      0 = (s.regs.counterHi ++ s.regs.counterLo).toNat ∧ 2 = s.regs.window.toNat ∧ 0 + 2 ≤ 2 ^ 64 - 1 ∧
      (∀ k ≤ 2, pHmac s.env s.regs.alg (be64 (BitVec.ofNat 64 (0 + k))) = .ok ([d0, d1, d2].getD k [])) ∧
      some 2 = (List.range 3).find? (fun k =>
        matchCode (codeString ([d0, d1, d2].getD k []) s.regs.digits.toNat) s.regs.digits.toNat s.regs.candLen
          s.regs.cand) :=
  ⟨by decide, reset_legal, by decide, by decide, by decide, by decide, by decide, by decide⟩

/-- V15 e: T = 0, W = 2, so two counters are skipped; candidate "359152". -/
theorem witness_TotpVerScansWindow :
    let s := idleUnit fun g => { g with window := 2, candLen := 6, cand := chars (hex 0x333539313532 6) }
    s.busy = false ∧ s.regs.legal ∧ s.port = { req := none, rsp := none } ∧
      timeStep (s.regs.timeHi ++ s.regs.timeLo) s.regs.stepSecs = 0 ∧
      (0 : DWord).toNat + s.regs.window.toNat ≤ 2 ^ 64 - 1 ∧
      (totpIndices 0 s.regs.window.toNat).map offsetOrder = [0, 1, 2] ∧
      (∀ off ∈ ([0, 1, 2] : List Int), pHmac s.env s.regs.alg (be64 (BitVec.ofInt 64 (0 + off))) =
        .ok ([d0, d1, d2].getD off.toNat [])) ∧
      some 2 = ([0, 1, 2] : List Int).find? (fun off =>
        matchCode (codeString ([d0, d1, d2].getD off.toNat []) s.regs.digits.toNat) s.regs.digits.toNat
          s.regs.candLen s.regs.cand) :=
  ⟨by decide, reset_legal, by decide, by decide, by decide, by decide, by decide, by decide⟩

theorem witness_ZeroizeCompletes : (withRegs fun g => { g with digits := 0, algSel := 3 }).busy = false := by
  decide

/-- HOTP_GEN of counter 4, whose answer is Fail. -/
theorem witness_GenerateKeyFail :
    let s := idleUnit fun g => { g with counterLo := 4 }
    s.busy = false ∧ s.regs.legal ∧ s.port = { req := none, rsp := none } ∧
      (4 : DWord) = s.regs.counterHi ++ s.regs.counterLo ∧ pHmac s.env s.regs.alg (be64 4) = .fail :=
  ⟨by decide, reset_legal, by decide, by decide, by decide⟩

/-- HOTP_VER from counter 3, whose second counter answers Fail. -/
theorem witness_HotpVerKeyFail :
    let s := idleUnit fun g => { g with counterLo := 3, window := 2 }
    s.busy = false ∧ s.regs.legal ∧ s.port = { req := none, rsp := none } ∧
      3 = (s.regs.counterHi ++ s.regs.counterLo).toNat ∧ 3 + s.regs.window.toNat ≤ 2 ^ 64 - 1 ∧
      1 ≤ s.regs.window.toNat ∧
      (∀ j < 1, pHmac s.env s.regs.alg (be64 (BitVec.ofNat 64 (3 + j))) ≠ .fail) ∧
      pHmac s.env s.regs.alg (be64 (BitVec.ofNat 64 (3 + 1))) = .fail :=
  ⟨by decide, reset_legal, by decide, by decide, by decide, by decide, by decide, by decide⟩

/-- TOTP_VER at T = 3 with W = 1: 3 and 2 answer Ok, 4 answers Fail (the shape of V8 c). -/
theorem witness_TotpVerKeyFail :
    let s := idleUnit fun g => { g with timeLo := 90, window := 1 }
    s.busy = false ∧ s.regs.legal ∧ s.port = { req := none, rsp := none } ∧
      timeStep (s.regs.timeHi ++ s.regs.timeLo) s.regs.stepSecs = 3 ∧
      (3 : DWord).toNat + s.regs.window.toNat ≤ 2 ^ 64 - 1 ∧
      (totpIndices 3 s.regs.window.toNat).map offsetOrder = [0, -1] ++ 1 :: [] ∧
      (∀ off ∈ ([0, -1] : List Int),
        pHmac s.env s.regs.alg (be64 (BitVec.ofInt 64 (3 + off))) ≠ .fail) ∧
      pHmac s.env s.regs.alg (be64 (BitVec.ofInt 64 (3 + 1))) = .fail :=
  ⟨by decide, reset_legal, by decide, by decide, by decide, by decide, by decide, by decide⟩

/-- A TRUNC that changes CODE_NUM and CODE, a T2C that changes TSTEP, a HOTP_VER that changes MATCH_CTR. -/
theorem witness_ResultWriters :
    look (fun t => t.results.chr) (runEvent .unit (latched .trunc .finish id id)) =
        some (chars (hex 0x303030303030 6)) ∧
      look (fun t => t.results.tstep) (runEvent .unit (latched (.t2c false) .finish
        (fun sn => { sn with time := 59 }) id)) = some 1 ∧
      look (fun t => t.results.matchCtr) (runEvent .unit (latched .hotpVer .finish id
        (fun sc => { sc with k := 1, found := true, fctr := 5 }))) = some 5 := by decide

/-- Two idle units with different candidates and digest buffers and the same provider. -/
theorem witness_RequestsIndependentOfCandidate :
    let s := idleUnit fun g => { g with window := 2 }
    let s' := idleUnit fun g =>
      { g with window := 2, candLen := 6, cand := chars (hex 0x333539313532 6), dbuf := buffer d1 }
    s.busy = false ∧ s'.busy = false ∧ s ≠ s' ∧
      s'.regs = { s.regs with candLen := s'.regs.candLen, cand := s'.regs.cand, dbuf := s'.regs.dbuf } ∧
      s'.env.nowInput = s.env.nowInput ∧ s'.env.draws = s.env.draws ∧
      s.port = { req := none, rsp := none } ∧ s'.port = { req := none, rsp := none } ∧
      (∀ alg m, pHmac s.env alg m = .fail ↔ pHmac s'.env alg m = .fail) ∧
      (∀ e ∈ scanTurns 3, e = .unit ∨ e = .provider) :=
  ⟨by decide, by decide, by decide, by decide, by decide, by decide, by decide, by decide,
    fun _ _ => Iff.rfl, by decide⟩

theorem witness_StepKeepsUnitConsistent :
    (runningUnit.withEvents [.provider]).Inv ∧
      look (fun t => t.port.req) (step (runningUnit.withEvents [.provider])) = some (some ⟨.sha1, be64 1⟩) := by
  have h := runningUnit_inv
  have r := runningUnit_running
  exact ⟨⟨h.request, h.response, h.digest, h.wd, h.busyFlags, fun m => absurd m (by decide), h.code, fun _ => ⟨.hotpVer, rfl,
    ⟨r.legal, r.base, r.noOverflow, r.index, r.waiting, r.finished, r.failed, r.found, r.requested, r.unworked,
      r.workCode⟩⟩⟩, rfl⟩

theorem witness_ConsistentUnitNeverFaults :
    runningUnit.Inv ∧ step (runningUnit.withEvents [.narrow 0x08]) = .refused .narrowAccess :=
  ⟨runningUnit_inv, rfl⟩

end Sys2Proof.Tests
end

section
/-! The message of an HMAC request: its bytes, and the number they spell (R10). -/

namespace Sys2Proof.Machine

theorem be64_getElem (c : DWord) (i : Nat) (hi : i < 8) :
    (be64 c)[i] = c.extractLsb' (56 - 8 * i) 8 := by
  interval_cases i <;> rfl

/-- Reading one more byte of a word: the part above bit `k + 8`, then the byte at bit `k`. -/
theorem shiftRight_add_byte {w : Nat} (c : BitVec w) (k : Nat) :
    256 * (c.toNat >>> (k + 8)) + (c.extractLsb' k 8).toNat = c.toNat >>> k := by
  rw [BitVec.extractLsb'_toNat, Nat.shiftRight_add, Nat.shiftRight_eq_div_pow _ 8]
  exact Nat.div_add_mod (c.toNat >>> k) 256

/-- The first `n` bytes of the message spell the top `8 * n` bits of the counter. -/
theorem foldl_take_be64 (c : DWord) (n : Nat) (hn : n ≤ 8) :
    ((be64 c).toList.take n).foldl (fun v b => 256 * v + b.toNat) 0 = c.toNat >>> (64 - 8 * n) := by
  induction n with
  | zero => exact (Nat.shiftRight_eq_zero _ _ c.isLt).symm
  | succ n ih =>
    have hlen : n < (be64 c).toList.length := by simpa using hn
    have hk : 64 - 8 * n = 56 - 8 * n + 8 := by omega
    calc ((be64 c).toList.take (n + 1)).foldl (fun v b => 256 * v + b.toNat) 0
      _ = 256 * ((be64 c).toList.take n).foldl (fun v b => 256 * v + b.toNat) 0
            + ((be64 c).toList[n]).toNat := by
          rw [← List.take_append_getElem hlen, List.foldl_append, List.foldl_cons, List.foldl_nil]
      _ = 256 * (c.toNat >>> (56 - 8 * n + 8)) + (c.extractLsb' (56 - 8 * n) 8).toNat := by
          rw [ih (by omega), hk, Vector.getElem_toList, be64_getElem]
      _ = c.toNat >>> (64 - 8 * (n + 1)) := by
          rw [shiftRight_add_byte, show 64 - 8 * (n + 1) = 56 - 8 * n by omega]

/-- Settles O37: the bytes are read off `be64`, and all eight of them spell the whole counter. -/
theorem messageIsBigEndian : Obligations.MessageIsBigEndian := by
  intro c
  have hall : (be64 c).toList.take 8 = (be64 c).toList := List.take_of_length_le (by simp)
  exact ⟨fun i => be64_getElem c i i.isLt, hall ▸ foldl_take_be64 c 8 le_rfl⟩

end Sys2Proof.Machine
end

section
/-! What an event can do, said once: the reading of `runEvent` that the whole-machine statements are proved from. -/

namespace Sys2Proof.Machine

/-- What one event can make of a state (R71): a case per agent, the host's write split by what its offset reaches. -/
inductive Moves (s : State) : Event → State → Prop where
  | read (off : BitVec 8) : Moves s (.read off) (returnWord (busRead off s) s)
  | ignored {off : BitVec 8} {v : Word} (reserved : regAt off = none) : Moves s (.write off v) s
  | command {off : BitVec 8} {v : Word} (i : Instr) (cmd : regAt off = some .cmd)
      (legal : decode v = .ok i) : Moves s (.write off v) (issueCommand i s)
  | illegal {off : BitVec 8} {v : Word} : Moves s (.write off v) (issueIllegal s)
  | clear {off : BitVec 8} {v : Word} :
      Moves s (.write off v) { s with status := s.status.clearedBy v }
  | store {off : BitVec 8} {v : Word} (r : Reg) :
      Moves s (.write off v) { s with regs := storeReg v s.regs r }
  | rest (idle : s.phase = .idle) : Moves s .unit s
  | run (i : Instr) (running : s.phase ≠ .idle) (latched : s.snap.op = some i) :
      Moves s .unit (commandStep i s)
  | provider : Moves s .provider (providerStep s)
  | reset : Moves s .reset (resetUnit s)

/-- An event that answers a next state is one of these moves. -/
theorem moves_of_runEvent {e : Event} {s t : State} (h : runEvent e s = .next t) : Moves s e t := by
  cases e with
  | read off => cases h; exact .read off
  | narrow off => cases h
  | provider => cases h; exact .provider
  | reset => cases h; exact .reset
  | unit =>
    obtain ⟨hp, rfl⟩ | ⟨i, hp, ho, rfl⟩ := unitStep_cases h
    · exact .rest hp
    · exact .run i hp ho
  | write off v =>
    obtain ⟨hr, h'⟩ | ⟨hr, i, hd, h'⟩ | ⟨_, _, _, h'⟩ | ⟨_, h'⟩ | ⟨r, _, _, _, h'⟩ :=
      busWrite_cases off v s <;> simp only [runEvent, h', exec_eq] at h <;> cases h
    · exact .ignored hr
    · exact .command i hr hd
    · exact .illegal
    · exact .clear
    · exact .store r

/-- The state after WAIT has taken the digest `d` and used it (R40). -/
def digested (i : Instr) (d : List Byte) (s : State) : State :=
  (nextIndex (onDigest i (candidate i s s.scan.k).1 (candidate i s s.scan.k).2
    (takeDigest d s))).withPhase .issue

/-- Taking a digest writes the port, WD, the scan state and the phase; of the scan state, the index goes up by one. -/
theorem digested_eq (i : Instr) (d : List Byte) (s : State) :
    ∃ sc, digested i d s =
        { s with port := { req := none, rsp := none }, wd := d, scan := sc, phase := .issue } ∧
      sc.base = s.scan.base ∧ sc.k = s.scan.k + 1 ∧ sc.fail = s.scan.fail := by
  obtain ⟨sc, hsc, hbase, hk, hfail⟩ := onDigest_frame i (candidate i s s.scan.k).1
    (candidate i s s.scan.k).2 (takeDigest d s)
  refine ⟨{ sc with k := sc.k + 1 }, ?_, hbase, congrArg (· + 1) hk, hfail⟩
  rw [digested, hsc]
  rfl

theorem digested_history (i : Instr) (d : List Byte) (s : State) :
    (digested i d s).history = s.history := by
  obtain ⟨sc, heq, -⟩ := digested_eq i d s
  rw [heq]

theorem digested_results (i : Instr) (d : List Byte) (s : State) :
    (digested i d s).results = s.results := by
  obtain ⟨sc, heq, -⟩ := digested_eq i d s
  rw [heq]

/-- The CMD write of an illegal word writes STATUS only (R173, R174). -/
theorem issueIllegal_frame (s : State) : ∃ st, issueIllegal s = { s with status := st } := by
  cases hb : s.busy with
  | true => exact ⟨_, issueIllegal_busy hb⟩
  | false => exact ⟨_, issueIllegal_idle hb⟩

end Sys2Proof.Machine
end

section
/-! The invariant of the unit: one law per kind of state a step can leave, then the step itself. -/

namespace Sys2Proof.Machine

/-! ### The parts of the machine the invariant does not look at, and the flags -/

/-- The registers the host writes and the world outside are no part of the invariant. -/
theorem State.Inv.replaced {s : State} (h : s.Inv) (e : Env) (g : Regs) : (s.replaced e g).Inv where
  request := h.request
  response := h.response
  digest := h.digest
  wd := h.wd
  busyFlags := h.busyFlags
  matched := fun m =>
    have r := h.matched m
    ⟨r.idle, r.noError, r.verify, r.found, r.counter, r.offset⟩
  code := h.code
  running := fun b =>
    have ⟨i, ho, r⟩ := h.running b
    ⟨i, ho, running_congr r rfl rfl rfl rfl rfl⟩

/-- New flags keep the invariant if a busy unit shows none of DONE, ERR and MATCH, and MATCH is not set anew. -/
theorem State.Inv.withStatus {s : State} (h : s.Inv) {st : Status}
    (busyFlags : s.busy = true → st.done = false ∧ st.err = none ∧ st.matched = false)
    (matched : st.matched = true → s.status.matched = true ∧ st.err = none) :
    ({ s with status := st } : State).Inv where
  request := h.request
  response := h.response
  digest := h.digest
  wd := h.wd
  busyFlags := busyFlags
  matched := fun m =>
    have ⟨hm, he⟩ := matched m
    have r := h.matched hm
    ⟨r.idle, he, r.verify, r.found, r.counter, r.offset⟩
  code := h.code
  running := fun b =>
    have ⟨i, ho, r⟩ := h.running b
    ⟨i, ho, running_congr r rfl rfl rfl rfl rfl⟩

theorem inv_clearedBy {s : State} (h : s.Inv) (v : Word) :
    ({ s with status := s.status.clearedBy v } : State).Inv := by
  refine h.withStatus (fun b => ?_) fun m => ⟨m, ?_⟩
  · obtain ⟨hd, he, hm⟩ := h.busyFlags b
    simp [Status.clearedBy, hd, he, hm]
  · simp [Status.clearedBy, (h.matched m).noError]

theorem inv_overrun {s : State} (h : s.Inv) : (overrun s).Inv :=
  h.withStatus h.busyFlags fun m => ⟨m, (h.matched m).noError⟩

theorem inv_reject {s : State} (h : s.Inv) (hb : s.busy = false) (c : ErrCode) :
    (reject c s).Inv :=
  h.withStatus (fun b => absurd b (by simp [hb])) fun m => nomatch m

/-! ### The port -/

/-- Nothing is outstanding on the port outside WAIT. -/
theorem State.Inv.port_empty {s : State} (h : s.Inv) (hp : s.phase ≠ .wait) :
    s.port.req = none ∧ s.port.rsp = none := by
  have hq : s.port.req = none := Option.not_isSome_iff_eq_none.mp fun q => hp (h.request.mp q)
  exact ⟨hq, Option.not_isSome_iff_eq_none.mp fun r => by simpa [hq] using h.response r⟩

theorem inv_providerStep {s : State} (h : s.Inv) : (providerStep s).Inv := by
  obtain ⟨r, hq, _, heq⟩ | ⟨_, heq⟩ := providerStep_cases s <;> rw [heq]
  · exact {
      request := h.request
      response := fun _ => by simp [hq]
      digest := fun r' d hr' hd => by
        obtain rfl : r = r' := Option.some.inj (hq.symm.trans hr')
        exact length_of_pHmac (Option.some.inj hd)
      wd := h.wd
      busyFlags := h.busyFlags
      matched := fun m =>
        have w := h.matched m
        ⟨w.idle, w.noError, w.verify, w.found, w.counter, w.offset⟩
      code := h.code
      running := fun b =>
        have ⟨i, ho, w⟩ := h.running b
        ⟨i, ho, running_congr w rfl rfl rfl rfl rfl⟩ }
  · exact h

/-! ### Idle states: completion and reset -/

/-- The invariant of an idle state asks for an empty port, a code that renders, and a truthful MATCH. -/
theorem inv_of_idle {t : State} (hp : t.phase = .idle)
    (hport : t.port.req = none ∧ t.port.rsp = none) (hw : t.wd.length ≤ 64)
    (hm : t.status.matched = true → t.MatchReported)
    (hc : ∃ digits, Renders t.results.codeNum t.results.chr digits) : t.Inv where
  request := by simp [hport.1, hp]
  response := by simp [hport.2]
  digest := by simp [hport.1]
  wd := hw
  busyFlags := fun b => absurd hp (busy_iff.mp b)
  matched := hm
  code := hc
  running := fun b => absurd hp (busy_iff.mp b)

theorem inv_resetUnit (s : State) : (resetUnit s).Inv :=
  inv_of_idle rfl ⟨rfl, rfl⟩ (by simp [resetUnit, State.reset]) (fun m => nomatch m)
    ⟨0, renders_cleared⟩

/-- `binCode` is below 2^31: the first byte has its top bit cleared (R100). -/
theorem binCode_lt (d : List Byte) : (binCode d).toNat < 2 ^ 31 := by
  have byte_lt : ∀ (b : Byte) (k : Nat), k ≤ 16 → (b.setWidth 32 <<< k).toNat < 2 ^ 31 := by
    intro b k hk
    have hp : 2 ^ k ≤ 2 ^ 16 := Nat.pow_le_pow_right (by omega) hk
    have hb : b.toNat * 2 ^ k ≤ 255 * 2 ^ 16 := Nat.mul_le_mul (by omega) hp
    rw [BitVec.toNat_shiftLeft, Nat.shiftLeft_eq, BitVec.toNat_setWidth,
      Nat.mod_eq_of_lt (by omega : b.toNat < 2 ^ 32)]
    omega
  have top_lt : ∀ b : Byte, ((b &&& 0x7F).setWidth 32 <<< 24).toNat < 2 ^ 31 := by
    intro b
    have hb := and_7F_toNat b
    rw [BitVec.toNat_shiftLeft, Nat.shiftLeft_eq, BitVec.toNat_setWidth]
    omega
  simp only [binCode, BitVec.toNat_or]
  refine Nat.or_lt_two_pow (Nat.or_lt_two_pow (Nat.or_lt_two_pow (top_lt _) ?_) ?_) ?_
  · exact byte_lt _ 16 (by omega)
  · exact byte_lt _ 8 (by omega)
  · simpa using byte_lt (d.getD (truncOffset d + 3) 0) 0 (by omega)

/-- A truncated code fits the 31 bits of CODE_NUM (R35, R100). -/
theorem truncCode_toNat (d : List Byte) (digits : Nat) :
    (BitVec.ofNat 31 (truncCode d digits)).toNat = truncCode d digits := by
  rw [BitVec.toNat_ofNat]
  exact Nat.mod_eq_of_lt (lt_of_le_of_lt (Nat.mod_le _ _) (binCode_lt d))

/-- The characters of a truncated code render it (R100, R101). -/
theorem renders_truncCode (d : List Byte) {digits : Nat} (hd : digits ≤ 10) :
    Renders (BitVec.ofNat 31 (truncCode d digits)) (codeChars digits (codeString d digits))
      digits := by
  refine ⟨hd, ?_, ?_⟩ <;> rw [truncCode_toNat]
  · exact Nat.mod_lt _ (by positivity)
  · rfl

/-- Characters that render a code still do after `Complete` has copied the first D of them (R122, R143). -/
theorem Renders.copied {code : BitVec 31} {chr : Vector Byte 10} {digits : Nat}
    (h : Renders code chr digits) : Renders code (codeChars digits chr.toList) digits := by
  obtain ⟨hd, hlt, rfl⟩ := h
  exact ⟨hd, hlt, codeChars_setChars _ _ _⟩

/-! ### What a completion writes -/

/-- CODE_NUM and CODE are left alone, or written by TRUNC, ZEROIZE or a generating command without failure. -/
theorem complete_code_cases (i : Instr) (s : State) :
    ((complete i s).results.codeNum = s.results.codeNum ∧
      (complete i s).results.chr = s.results.chr) ∨
    (i = .trunc ∧
      (complete i s).results.codeNum =
        BitVec.ofNat 31 (truncCode (truncDigest s.snap) s.snap.digits.toNat) ∧
      (complete i s).results.chr =
        codeChars s.snap.digits.toNat (codeString (truncDigest s.snap) s.snap.digits.toNat)) ∨
    (i = .zeroize ∧ (complete i s).results.codeNum = 0 ∧
      (complete i s).results.chr = Vector.replicate 10 0) ∨
    ((i = .hotpGen ∨ ∃ u, i = .totpGen u) ∧ s.scan.fail = false ∧
      (complete i s).results.codeNum = s.scan.wcode ∧
      (complete i s).results.chr = codeChars s.snap.digits.toNat s.scan.wchr.toList) := by
  cases i with
  | trunc => exact .inr (.inl ⟨rfl, rfl, rfl⟩)
  | t2c u => exact .inl ⟨rfl, rfl⟩
  | zeroize => exact .inr (.inr (.inl ⟨rfl, rfl, rfl⟩))
  | hotpGen | totpGen u =>
    cases hf : s.scan.fail
    · exact .inr (.inr (.inr
        (by simp [complete, completeHotpGen, completeTotpGen, hf, Results.withWorkCode])))
    · exact .inl (by simp [complete, completeHotpGen, completeTotpGen, hf])
  | hotpVer | totpVer u =>
    cases hf : s.scan.fail <;>
      exact .inl (by simp [complete, completeHotpVer, completeTotpVer, hf, Results.withMatch])

/-- TSTEP is left alone, or written by T2C, ZEROIZE or a TOTP command without failure. -/
theorem complete_tstep_cases (i : Instr) (s : State) :
    (complete i s).results.tstep = s.results.tstep ∨ (∃ u, i = .t2c u) ∨ i = .zeroize ∨
      ((∃ u, i = .totpGen u ∨ i = .totpVer u) ∧ s.scan.fail = false) := by
  cases i with
  | trunc => exact .inl rfl
  | t2c u => exact .inr (.inl ⟨u, rfl⟩)
  | zeroize => exact .inr (.inr (.inl rfl))
  | hotpGen | hotpVer =>
    cases hf : s.scan.fail <;>
      exact .inl (by
        simp [complete, completeHotpGen, completeHotpVer, hf, Results.withWorkCode,
          Results.withMatch])
  | totpGen u | totpVer u =>
    cases hf : s.scan.fail
    · exact .inr (.inr (.inr ⟨⟨u, by simp⟩, rfl⟩))
    · exact .inl (by simp [complete, completeTotpGen, completeTotpVer, hf])

/-- MATCH and the match registers are left alone, cleared by ZEROIZE, or written by a verify; and a verify that
sets MATCH reports the match its scan found. -/
theorem complete_match_cases (i : Instr) (s : State) :
    ((complete i s).results.matchCtr = s.results.matchCtr ∧
      (complete i s).results.matchOff = s.results.matchOff ∧
      (complete i s).status.matched = s.status.matched) ∨
    (i = .zeroize ∧ (complete i s).status.matched = false) ∨
    ((i = .hotpVer ∨ ∃ u, i = .totpVer u) ∧
      (complete i s).snap = s.snap ∧ (complete i s).scan = s.scan ∧
      ((complete i s).status.matched = true →
        (complete i s).status.err = s.status.err ∧ s.scan.fail = false ∧ s.scan.found = true ∧
        (complete i s).results.matchCtr = s.scan.fctr ∧
        (complete i s).results.matchOff = BitVec.ofInt 64 s.scan.foff)) := by
  cases i with
  | trunc | t2c u => exact .inl ⟨rfl, rfl, rfl⟩
  | zeroize => exact .inr (.inl ⟨rfl, rfl⟩)
  | hotpGen | totpGen u =>
    cases hf : s.scan.fail <;>
      exact .inl (by simp [complete, completeHotpGen, completeTotpGen, hf, Results.withWorkCode])
  | hotpVer | totpVer u =>
    cases hf : s.scan.fail <;> cases hm : s.scan.found <;>
      exact .inr (.inr
        (by simp [complete, completeHotpVer, completeTotpVer, hf, hm, Results.withMatch]))

/-- WD is left alone, or cleared by ZEROIZE. -/
theorem complete_wd_length {i : Instr} {s : State} (h : s.wd.length ≤ 64) :
    (complete i s).wd.length ≤ 64 := by
  cases i with
  | zeroize => exact Nat.le_of_eq List.length_replicate
  | trunc | t2c => exact h
  | hotpGen | totpGen | hotpVer | totpVer =>
    cases hf : s.scan.fail <;>
      simpa [complete, completeHotpGen, completeTotpGen, completeHotpVer, completeTotpVer, hf]
        using h

/-- The completion of a running command meets the invariant. -/
theorem inv_complete {i : Instr} {s : State} (h : s.Inv) (hp : s.phase = .finish)
    (ho : s.snap.op = some i) (r : Running i s) : (complete i s).Inv := by
  obtain ⟨hidle, -, -, hport, -, -⟩ := complete_frame i s
  obtain ⟨-, herr, hmatch⟩ := h.busyFlags (busy_iff.mpr (by simp [hp]))
  refine inv_of_idle hidle (hport ▸ h.port_empty (by simp [hp])) (complete_wd_length h.wd)
    (fun m => ?_) ?_
  · obtain ⟨-, -, hsame⟩ | ⟨-, hclear⟩ | ⟨hv, hsnap, hscan, hrep⟩ := complete_match_cases i s
    · exact absurd m (by simp [hsame, hmatch])
    · exact absurd m (by simp [hclear])
    · obtain ⟨he, hf, hfound, hctr, hoff⟩ := hrep m
      refine ⟨hidle, he.trans herr, ?_, hscan ▸ ⟨hf, hfound⟩, hscan ▸ hctr, hscan ▸ hoff⟩
      simpa [hsnap, ho] using hv
  · obtain ⟨hnum, hchr⟩ | ⟨rfl, hnum, hchr⟩ | ⟨-, hnum, hchr⟩ | ⟨hg, hf, hnum, hchr⟩ :=
      complete_code_cases i s <;> rw [hnum, hchr]
    · exact h.code
    · obtain ⟨-, hd, -⟩ := r.legal (by simp)
      exact ⟨_, renders_truncCode _ hd⟩
    · exact ⟨0, renders_cleared⟩
    · have hone : requestCount i s = 1 := by obtain rfl | ⟨u, rfl⟩ := hg <;> rfl
      have hk : s.scan.k = requestCount i s := (r.finished hp).resolve_left (by simp [hf])
      exact ⟨_, (r.workCode hg (by omega)).copied⟩

/-! ### Acceptance -/

/-- The base acceptance sets is its own base (R170). -/
theorem baseOf_idem (i : Instr) (sn : Snap) (old : DWord) :
    baseOf i sn old = baseOf i sn (baseOf i sn old) := by
  cases i <;> rfl

/-- An accepted command is running (R170). -/
theorem running_accept {i : Instr} {s : State} (hc : configError i s.regs = none)
    (ho : windowOverflows i (snapFor i s) (baseFor i s) = false) (e : Env) :
    Running i (accept (snapFor i s) (baseFor i s) { s with env := e }) where
  legal := fun hz =>
    have ⟨h1, h10, _, hs⟩ := (configError_eq_none_iff.mp hc).resolve_left hz
    ⟨h1, h10, hs⟩
  base := baseOf_idem i _ _
  noOverflow := ho
  index := Nat.zero_le _
  waiting := fun hw => nomatch hw
  finished := fun hf => nomatch hf
  failed := fun hf => nomatch hf
  found := fun hf => nomatch hf
  requested := ⟨s.history, by simp [sentRequests, scanStart]⟩
  unworked := fun _ => ⟨rfl, rfl⟩
  workCode := fun _ hk => absurd hk (Nat.lt_irrefl 0)

/-- A busy state runs a latched command; its flags, results and port come from a consistent busy state. -/
theorem inv_of_running {s t : State} {i : Instr} (h : s.Inv) (ho : t.snap.op = some i)
    (r : Running i t)
    (hflags : t.status.done = false ∧ t.status.err = none ∧ t.status.matched = false)
    (hresults : t.results = s.results) (hw : t.wd.length ≤ 64)
    (hq : t.port.req.isSome = true ↔ t.phase = .wait) (hr : t.port.rsp = none) : t.Inv where
  request := hq
  response := by simp [hr]
  digest := by simp [hr]
  wd := hw
  busyFlags := fun _ => hflags
  matched := fun m => absurd m (by simp [hflags])
  code := hresults ▸ h.code
  running := fun _ => ⟨i, ho, r⟩

/-- A CMD write of a legal command keeps the invariant: dropped, rejected or accepted (R170). -/
theorem inv_issueCommand {s : State} (h : s.Inv) (i : Instr) : (issueCommand i s).Inv := by
  cases hb : s.busy with
  | true => rw [issueCommand_busy hb]; exact inv_overrun h
  | false =>
    rw [issueCommand_idle hb]
    have hdrawn : ({ s with env := (sampleTime i s).2 } : State).Inv := h.replaced _ _
    obtain ⟨c, -, heq⟩ | ⟨-, -, heq⟩ | ⟨hc, ho, heq⟩ := decideCommand_cases i s <;> rw [heq]
    · exact inv_reject h hb c
    · exact inv_reject hdrawn hb _
    · obtain ⟨hq, hr⟩ := h.port_empty (by simp [busy_false_iff.mp hb])
      exact inv_of_running h rfl (running_accept hc ho _) ⟨rfl, rfl, rfl⟩ rfl h.wd
        (by simp [hq]) hr

theorem inv_issueIllegal {s : State} (h : s.Inv) : (issueIllegal s).Inv := by
  cases hb : s.busy with
  | true => rw [issueIllegal_busy hb]; exact inv_overrun h
  | false => rw [issueIllegal_idle hb]; exact inv_reject h hb _

/-! ### The steps of a running command -/

/-- No Fail has been taken before FINISH (R126). -/
theorem Running.not_failed {i : Instr} {s : State} (r : Running i s) (hp : s.phase ≠ .finish) :
    s.scan.fail = false :=
  Bool.eq_false_iff.mpr fun hf => hp (r.failed hf).1

/-- A state that keeps the snapshot and the base runs the same command, with the same requests and candidates. -/
theorem running_of_step {i : Instr} {s t : State} (r : Running i s) (hs : t.snap = s.snap)
    (hb : t.scan.base = s.scan.base) (index : t.scan.k ≤ requestCount i s)
    (waiting : t.phase = .wait → t.scan.k < requestCount i s ∧
      t.port.req = some ⟨s.snap.alg, be64 (candidate i s t.scan.k).1⟩)
    (finished : t.phase = .finish → t.scan.fail = true ∨ t.scan.k = requestCount i s)
    (failed : t.scan.fail = true → t.phase = .finish ∧ t.scan.k < requestCount i s)
    (found : t.scan.found = true → ∃ j < t.scan.k,
      t.scan.fctr = (candidate i s j).1 ∧ t.scan.foff = (candidate i s j).2)
    (requested : ∃ before, t.history = before ++
      (List.range (sentRequests t)).map fun j => ⟨s.snap.alg, be64 (candidate i s j).1⟩)
    (unworked : t.scan.k = 0 → t.scan.wcode = 0 ∧ t.scan.wchr = Vector.replicate 10 0)
    (workCode : (i = .hotpGen ∨ ∃ u, i = .totpGen u) → 0 < t.scan.k →
      Renders t.scan.wcode t.scan.wchr s.snap.digits.toNat) : Running i t := by
  have hn : requestCount i t = requestCount i s := requestCount_congr i hs hb
  have hc : ∀ j, candidate i t j = candidate i s j := candidate_congr i hs hb
  constructor
  case legal => exact hs ▸ r.legal
  case base => rw [hs, hb]; exact r.base
  case noOverflow => rw [hs, hb]; exact r.noOverflow
  case index => rwa [hn]
  case waiting => rwa [hn, hs, hc]
  case finished => rwa [hn]
  case failed => rwa [hn]
  case found => simpa only [hc] using found
  case requested => simpa only [hs, hc] using requested
  case unworked => exact unworked
  case workCode => rwa [hs]

/-- ISSUE with a candidate left: its request is outstanding, and is the last of the history (R40). -/
theorem running_requested {i : Instr} {s : State} (r : Running i s) (hp : s.phase = .issue)
    (hk : s.scan.k < requestCount i s) : Running i (requested i s) := by
  have hf : s.scan.fail = false := r.not_failed (by simp [hp])
  obtain ⟨before, hb⟩ := r.requested
  have hsent : sentRequests s = s.scan.k := by simp [sentRequests, hp, hf]
  have hsent' : sentRequests (requested i s) = s.scan.k + 1 := by simp [sentRequests, requested]
  refine running_of_step r rfl rfl (index := r.index) (waiting := fun _ => ⟨hk, rfl⟩)
    (finished := fun h => nomatch h) (failed := fun h => nomatch hf.symm.trans h)
    (found := r.found) (requested := ⟨before, ?_⟩) (unworked := r.unworked)
    (workCode := r.workCode)
  rw [hsent', List.range_succ, List.map_append, ← List.append_assoc, ← hsent, ← hb, hsent]
  rfl

/-- ISSUE at the end of the scan: FINISH (R40). -/
theorem running_scanEnd {i : Instr} {s : State} (r : Running i s) (hp : s.phase = .issue)
    (hk : requestCount i s ≤ s.scan.k) : Running i (s.withPhase .finish) := by
  have hf : s.scan.fail = false := r.not_failed (by simp [hp])
  have hsent : sentRequests (s.withPhase .finish) = sentRequests s := by
    simp [sentRequests, hp, hf]
  exact running_of_step r rfl rfl (index := r.index) (waiting := fun h => nomatch h)
    (finished := fun _ => .inr (Nat.le_antisymm r.index hk))
    (failed := fun h => nomatch hf.symm.trans h) (found := r.found)
    (requested := hsent ▸ r.requested) (unworked := r.unworked) (workCode := r.workCode)

/-- WAIT answered Fail: FINISH at once, with the failed request counted (R126, R148). -/
theorem running_failed {i : Instr} {s : State} (r : Running i s) (hp : s.phase = .wait) :
    Running i ((takeFail s).withPhase .finish) := by
  obtain ⟨hk, -⟩ := r.waiting hp
  have hsent : sentRequests ((takeFail s).withPhase .finish) = sentRequests s := by
    simp [sentRequests, hp]
  exact running_of_step r rfl rfl (index := r.index) (waiting := fun h => nomatch h)
    (finished := fun _ => .inl rfl) (failed := fun _ => ⟨rfl, hk⟩) (found := r.found)
    (requested := hsent ▸ r.requested) (unworked := r.unworked) (workCode := r.workCode)

/-- A match kept after a digest is an earlier one, or that of the candidate just compared (R123, R145). -/
theorem onDigest_found {i : Instr} {ctr : DWord} {off : Int} {s : State}
    (h : (onDigest i ctr off s).scan.found = true) :
    (s.scan.found = true ∧ (onDigest i ctr off s).scan.fctr = s.scan.fctr ∧
      (onDigest i ctr off s).scan.foff = s.scan.foff) ∨
    ((onDigest i ctr off s).scan.fctr = ctr ∧ (onDigest i ctr off s).scan.foff = off) := by
  cases i with
  | trunc | t2c u | zeroize | hotpGen | totpGen u => exact .inl ⟨h, rfl, rfl⟩
  | hotpVer | totpVer u =>
    simp only [onDigest, compareCode_eq] at h ⊢
    split_ifs at h ⊢
    · exact .inr ⟨rfl, rfl⟩
    · exact .inl ⟨h, rfl, rfl⟩

/-- A generating command's working characters, cleared by acceptance, render its working code (R122, R143). -/
theorem onDigest_renders {i : Instr} (hg : i = .hotpGen ∨ ∃ u, i = .totpGen u) {ctr : DWord}
    {off : Int} {s : State} (hd : s.snap.digits.toNat ≤ 10)
    (hw : s.scan.wchr = Vector.replicate 10 0) :
    Renders (onDigest i ctr off s).scan.wcode (onDigest i ctr off s).scan.wchr
      s.snap.digits.toNat := by
  have hwork : onDigest i ctr off s = workCode s := by obtain rfl | ⟨u, rfl⟩ := hg <;> rfl
  have hchr : (workCode s).scan.wchr =
      codeChars s.snap.digits.toNat (codeString s.wd s.snap.digits.toNat) := by
    simp only [workCode, codeChars, hw]
  rw [hwork, hchr]
  exact renders_truncCode s.wd hd

/-- A generating command makes one request. -/
theorem requestCount_generate {i : Instr} (hg : i = .hotpGen ∨ ∃ u, i = .totpGen u) (s : State) :
    requestCount i s = 1 := by
  obtain rfl | ⟨u, rfl⟩ := hg <;> rfl

/-- WAIT answered with a digest: it is used, and the scan goes on with the next candidate (R40). -/
theorem running_digested {i : Instr} {s : State} (r : Running i s) (hp : s.phase = .wait)
    (d : List Byte) : Running i (digested i d s) := by
  obtain ⟨hk, -⟩ := r.waiting hp
  have hf : s.scan.fail = false := r.not_failed (by simp [hp])
  obtain ⟨sc, heq, hbase, hidx, hfail⟩ := digested_eq i d s
  have hk' : (digested i d s).scan.k = s.scan.k + 1 := by rw [heq, hidx]
  have hf' : (digested i d s).scan.fail = false := by rw [heq, hfail, hf]
  have hsent : sentRequests (digested i d s) = sentRequests s := by
    simp [sentRequests, hk', hf', hp, show (digested i d s).phase = .issue from rfl]
  refine running_of_step r (by rw [heq]) (by rw [heq, hbase]) (index := by omega)
    (waiting := fun h => nomatch h) (finished := fun h => nomatch h)
    (failed := fun h => nomatch hf'.symm.trans h) (found := fun h => ?_)
    (requested := by rw [hsent, heq]; exact r.requested) (unworked := fun h => by omega)
    (workCode := fun hg _ => ?_)
  · rw [hk']
    obtain ⟨hold, hctr, hoff⟩ | ⟨hctr, hoff⟩ := onDigest_found h
    · obtain ⟨j, hj, hjc, hjo⟩ := r.found hold
      exact ⟨j, by omega, hctr.trans hjc, hoff.trans hjo⟩
    · exact ⟨s.scan.k, by omega, hctr, hoff⟩
  · have hfirst : s.scan.k = 0 := by have := requestCount_generate hg s; omega
    obtain ⟨-, hd, -⟩ := r.legal (by rintro rfl; simp at hg)
    exact onDigest_renders hg (s := takeDigest d s) hd (r.unworked hfirst).2

/-- Every turn of a running command keeps the invariant (R40). -/
theorem inv_commandStep {i : Instr} {s : State} (h : s.Inv) (hp : s.phase ≠ .idle)
    (ho : s.snap.op = some i) : (commandStep i s).Inv := by
  have hbusy : s.busy = true := busy_iff.mpr hp
  have hflags := h.busyFlags hbusy
  obtain ⟨i', ho', r⟩ := h.running hbusy
  obtain rfl : i = i' := Option.some.inj (ho.symm.trans ho')
  obtain ⟨hph, hk, heq⟩ | ⟨hph, hk, heq⟩ | ⟨-, -, heq⟩ | ⟨hph, -, heq⟩ | ⟨d, hph, hd, heq⟩ |
    ⟨hph, heq⟩ := commandStep_cases i hp <;> rw [heq]
  · obtain ⟨-, hr⟩ := h.port_empty (by simp [hph])
    exact inv_of_running h ho (running_requested r hph hk) hflags rfl h.wd (by simp) hr
  · obtain ⟨hq, hr⟩ := h.port_empty (by simp [hph])
    exact inv_of_running h ho (running_scanEnd r hph hk) hflags rfl h.wd (by simp [hq]) hr
  · exact h
  · exact inv_of_running h ho (running_failed r hph) hflags rfl h.wd (by simp) rfl
  · obtain ⟨-, hq⟩ := r.waiting hph
    have hlen : d.length ≤ 64 := (h.digest _ d hq hd).trans_le (digestLen_le _)
    obtain ⟨sc, hsc, -⟩ := digested_eq i d s
    have hr : Running i (digested i d s) := running_digested r hph d
    change (digested i d s).Inv
    rw [hsc] at hr ⊢
    exact inv_of_running h ho hr hflags rfl hlen (by simp) rfl
  · exact inv_complete h hph ho r

/-! ### The step -/

/-- Every move keeps the invariant. -/
theorem inv_of_moves {e : Event} {s t : State} (h : s.Inv) (m : Moves s e t) : t.Inv := by
  cases m with
  | read off => exact h.replaced { s.env with reads := s.env.reads ++ [busRead off s] } s.regs
  | ignored => exact h
  | command i => exact inv_issueCommand h i
  | illegal => exact inv_issueIllegal h
  | clear => exact inv_clearedBy h _
  | store r => exact h.replaced s.env _
  | rest => exact h
  | run i hp ho => exact inv_commandStep h hp ho
  | provider => exact inv_providerStep h
  | reset => exact inv_resetUnit s

/-- Settles O52: a step is the first listed event's move, and taking it off the list is a change of the world only. -/
theorem stepKeepsUnitConsistent : Obligations.StepKeepsUnitConsistent := by
  intro s t h hstep
  unfold step at hstep
  split at hstep
  · cases hstep
    exact h
  · rename_i e es _
    exact inv_of_moves (h.replaced { s.env with events := es } s.regs) (moves_of_runEvent hstep)

end Sys2Proof.Machine
end

section
/-! The register window (R22): what each register reads, what a write stores, and what it leaves alone. -/

namespace Sys2Proof.Machine

/-! ### Bytes in words -/

/-- A write of word `k` of a buffer sets byte `j` exactly if `j` lies in that word (R64). -/
theorem getElem_setBytes {n : Nat} (b : Vector Byte n) (k : Nat) (v : Word) (j : Nat)
    (hj : j < n) : (setBytes b (4 * k) v)[j] =
      if j / 4 = k then v.extractLsb' (24 - 8 * (j % 4)) 8 else b[j] := by
  simp only [setBytes, Vector.getElem_ofFn, wordByte]
  by_cases h : j / 4 = k
  · rw [if_pos (by omega), if_pos h, show j - 4 * k = j % 4 by omega]
  · rw [if_neg (by omega), if_neg h]
    rfl

/-- A word of a buffer is its four bytes, the first most significant (R64). -/
theorem bytesWord_eq {n : Nat} (b : Vector Byte n) (i : Nat) (h : i + 3 < n) :
    bytesWord b i = b[i] ++ b[i + 1] ++ b[i + 2] ++ b[i + 3] := by
  rw [bytesWord, getD_eq_getElem, getD_eq_getElem, getD_eq_getElem, getD_eq_getElem, packWord]

/-- Two bytes in the high half, and a low half of zero (R30, R36). -/
theorem packWord_high (a b : Byte) : packWord a b 0 0 = a ++ b ++ (0 : BitVec 16) := by
  apply BitVec.eq_of_getLsbD_eq
  intro i hi
  simp only [packWord, BitVec.getLsbD_append]
  by_cases hlow : i < 16
  · rw [if_pos hlow, if_pos (show i - 8 < 8 by omega)]
    simp
  · rw [if_neg (by omega), if_neg (by omega), if_neg hlow, Nat.sub_sub]

/-- The third word of ten characters holds the last two, and zero below (R30, R36). -/
theorem bytesWord_third (b : Vector Byte 10) :
    bytesWord b 8 = b[8] ++ b[9] ++ (0 : BitVec 16) := by
  have past : ∀ i, 10 ≤ i → b.getD i 0 = 0 := fun i hi => by
    simp [Vector.getD, Nat.not_lt.mpr hi]
  rw [bytesWord, getD_eq_getElem b 8 (by omega), getD_eq_getElem b 9 (by omega),
    past 10 (by omega), past 11 (by omega), packWord_high]

/-! ### Reads -/

/-- Settles O11: the pairs by their halves, CODE_NUM by its width, the characters as they are packed. -/
theorem resultReads : Obligations.ResultReads := by
  intro s
  refine ⟨hiWord_append_loWord _, hiWord_append_loWord _, hiWord_append_loWord _, ?_,
    bytesWord_eq _ 0 (by omega), bytesWord_eq _ 4 (by omega), bytesWord_third _⟩
  change s.results.codeNum.setWidth 32 = (0 : BitVec 1) ++ s.results.codeNum
  apply BitVec.eq_of_getLsbD_eq
  intro i hi
  rw [BitVec.getLsbD_setWidth, BitVec.getLsbD_append, decide_eq_true hi, Bool.true_and]
  by_cases h31 : i < 31
  · rw [if_pos h31]
  · rw [if_neg h31, BitVec.getLsbD_of_ge _ _ (by omega)]
    simp

/-- Settles O12, by the fields of the STATUS word. -/
theorem statusWordFields : Obligations.StatusWordFields := by
  intro s
  have hword : busRead 0x04 s = s.status.word s.busy := rfl
  obtain ⟨hbusy, hdone, herr, hmatch, hover, hlow, hcode, hhigh⟩ :=
    s.status.word_fields s.busy
  rw [hword, hbusy, herr, hcode]
  refine ⟨busy_iff, hdone, Option.isSome_iff_ne_none, hmatch, hover, hlow, ?_, hhigh⟩
  unfold Status.errCode
  cases s.status.err with
  | none => rfl
  | some c => cases c <;> rfl

/-- No register reads the digest buffer, its snapshot, WD, the port or the scan state (R39, R43). -/
theorem readReg_withDigests (b dig : Vector Byte 64) (wd : List Byte) (p : Port) (sc : Scan)
    (s : State) (r : Reg) :
    readReg { s with
      regs := { s.regs with dbuf := b }, snap := { s.snap with dig := dig }
      wd := wd, port := p, scan := sc } r = readReg s r := by
  cases r <;> rfl

/-- Settles O50: a read is 0 or a register's, and no register reads a digest. -/
theorem digestsAreNotReadable : Obligations.DigestsAreNotReadable := by
  intro off s b dig wd p sc
  unfold busRead
  cases regAt off with
  | none => rfl
  | some r => exact readReg_withDigests b dig wd p sc s r

/-! ### Writes -/

/-- A write to a register with no write effect of its own stores its value (R68). -/
theorem busWrite_store {off : BitVec 8} {r : Reg} (hr : regAt off = some r) (hc : r ≠ .cmd)
    (hs : r ≠ .status) (v : Word) (s : State) :
    busWrite off v s = .next { s with regs := storeReg v s.regs r } := by
  unfold busWrite
  rw [hr]
  cases r with
  | cmd | status => contradiction
  | _ => rfl

/-- The registers of the read-only range store nothing (R22). -/
theorem storeReg_readOnly {r : Reg} (hlo : 14 ≤ r.word) (hhi : r.word < 24) (v : Word)
    (g : Regs) : storeReg v g r = g := by
  cases r with
  | digest k => exact absurd hhi (by simp [Reg.word])
  | ctrl | config | stepSecs | window | counterLo | counterHi | timeLo | timeHi | candLen | cand0 |
    cand1 | cand2 => exact absurd hlo (by simp [Reg.word])
  | _ => rfl

/-- Settles O8: the range holds neither CMD nor STATUS, and its registers store nothing. -/
theorem readOnlyWritesIgnored : Obligations.ReadOnlyWritesIgnored := by
  intro off v s hlo hhi
  cases hr : regAt off with
  | none => simp [busWrite, hr]
  | some r =>
    have hw := word_of_regAt hr
    have hc : r ≠ .cmd := by rintro rfl; simp only [Reg.word] at hw; omega
    have hs : r ≠ .status := by rintro rfl; simp only [Reg.word] at hw; omega
    have hlo' : 0x38 ≤ off.toNat := hlo
    have hhi' : off.toNat < 0x60 := hhi
    rw [busWrite_store hr hc hs, storeReg_readOnly (by omega) (by omega)]

/-- Settles O13: DONE and ERR of a consistent busy unit are 0 before the write, so there is nothing to clear. -/
theorem statusWriteOneToClear : Obligations.StatusWriteOneToClear := by
  intro v s
  have hclear : s.status.clearedBy v =
      { done := if v.getLsbD 1 then false else s.status.done
        err := if v.getLsbD 2 then none else s.status.err
        matched := s.status.matched
        overrun := if v.getLsbD 4 then false else s.status.overrun } := by
    unfold Status.clearedBy
    cases v.getLsbD 1 <;> cases v.getLsbD 4 <;> simp
  have hwrite : busWrite 0x04 v s = .next { s with status := s.status.clearedBy v } := rfl
  refine ⟨hclear ▸ hwrite, fun hinv hb hv => ?_⟩
  obtain ⟨hd, he, -⟩ := hinv.busyFlags hb
  have hkeep : s.status.clearedBy v = s.status := by
    rw [hclear, hv, hd, he, ite_self, ite_self, if_neg Bool.false_ne_true, ← hd, ← he]
  rw [hwrite, hkeep]

/-- Settles O14: the fields of the two words are the flags and the enables. -/
theorem interruptLevel : Obligations.InterruptLevel := by
  intro s
  obtain ⟨-, hdone, herr, -⟩ := s.status.word_fields s.busy
  obtain ⟨hieDone, hieErr⟩ := ctrlWord_fields s.regs
  have hstatus : busRead 0x04 s = s.status.word s.busy := rfl
  have hctrl : busRead 0x00 s = ctrlWord s.regs := rfl
  refine ⟨?_, fun v t h1 h2 hw => ?_, fun v t h0 h1 hw => ?_⟩
  · rw [hstatus, hctrl, hdone, herr, hieDone, hieErr, irq]
  · cases hw
    simp [irq, Status.clearedBy, Status.errBit, h1, h2]
  · cases hw
    simp only [irq, storeReg, h0, h1, Bool.and_false, Bool.or_false]

/-- Settles O10: the offsets of the DIGEST registers in the map, and their bytes of the buffer. -/
theorem digestPacking : Obligations.DigestPacking := by
  intro k v s
  have hr : ∀ k : Fin 16, regAt (BitVec.ofNat 8 (0x60 + 4 * k.val)) = some (.digest k) := by
    decide
  refine ⟨by rw [busRead, hr]; rfl, setBytes s.regs.dbuf (4 * k.val) v, ?_, fun j =>
    getElem_setBytes _ _ _ _ j.isLt⟩
  rw [busWrite_store (hr k) (by simp) (by simp)]
  rfl

/-- Settles O9: CAND0 to CAND2 are words 0 to 2 of the ten characters. -/
theorem candidatePacking : Obligations.CandidatePacking := by
  intro v s
  refine ⟨bytesWord_eq _ 0 (by omega), bytesWord_eq _ 4 (by omega), bytesWord_third _,
    fun w => ⟨setBytes s.regs.cand (4 * w.val) v, ?_, fun j => getElem_setBytes _ _ _ _ j.isLt⟩,
    by decide⟩
  match w with
  | 0 | 1 | 2 => rfl

/-! ### RW registers -/

/-- The bits of an RW register that hold what is written; `none` for the registers of another kind (R22 to R30). -/
def Reg.usedBits : Reg → Option Word
  | .ctrl => some 0x00000003
  | .config => some 0x0000003F
  | .stepSecs | .window | .counterLo | .counterHi | .timeLo | .timeHi => some 0xFFFFFFFF
  | .candLen => some 0x0000000F
  | .cand0 | .cand1 => some 0xFFFFFFFF
  | .cand2 => some 0xFFFF0000
  | .status | .cmd | .tstepLo | .tstepHi | .codeNum | .code0 | .code1 | .code2 | .matchCtrLo
  | .matchCtrHi | .matchOffLo | .matchOffHi | .digest _ => none

/-- An RW register reads back what was written in its used bits. -/
theorem readReg_storeReg_same {r : Reg} {mask : Word} (h : r.usedBits = some mask) (v : Word)
    (s : State) : readReg { s with regs := storeReg v s.regs r } r = v &&& mask := by
  cases r <;> cases h <;> simp only [readReg]
  case ctrl => exact ctrlWord_store v s.regs
  case config => exact configWord_store v s.regs
  case candLen => exact candLen_store v
  case cand2 => exact bytesWord_setBytes_cand2 _ v
  all_goals rw [and_fullMask]
  case cand0 | cand1 => exact bytesWord_setBytes _ _ v (by omega)
  all_goals rfl

/-- No other register reads differently after a store: the registers keep apart fields, but for CAND0 to CAND2, which
are different words of the ten characters. -/
theorem readReg_storeReg_other {r r' : Reg} (h : r' ≠ r) (v : Word) (s : State) :
    readReg { s with regs := storeReg v s.regs r } r' = readReg s r' := by
  cases r with
  | cand0 | cand1 | cand2 =>
    cases r' with
    | cand0 | cand1 | cand2 =>
      first | contradiction | exact bytesWord_setBytes_of_disjoint _ _ _ v (by omega)
    | _ => rfl
  | digest k => exact readReg_withDigests _ _ _ _ _ s r'
  | ctrl | config | stepSecs | window | counterLo | counterHi | timeLo | timeHi | candLen =>
    cases r' <;> first | contradiction | rfl
  | _ => rfl

/-- A store to an RW register leaves the digest buffer (R39). -/
theorem storeReg_dbuf {r : Reg} {mask : Word} (h : r.usedBits = some mask) (v : Word) (g : Regs) :
    (storeReg v g r).dbuf = g.dbuf := by
  cases r with
  | digest k => cases h
  | _ => rfl

/-- Settles O7: each of the twelve offsets is an RW register's, and another word's register is another one. -/
theorem writtenRegisterReadsBack : Obligations.WrittenRegisterReadsBack := by
  intro p hp v s
  have hbits : (regAt p.1).bind Reg.usedBits = some p.2 := by
    revert p
    simp [regAt, Reg.usedBits]
  obtain ⟨r, hr, hmask⟩ := Option.bind_eq_some_iff.mp hbits
  refine ⟨storeReg v s.regs r, ?_, ?_, storeReg_dbuf hmask v s.regs, fun off hoff => ?_⟩
  · exact busWrite_store hr (by rintro rfl; cases hmask) (by rintro rfl; cases hmask) v s
  · rw [busRead, hr]
    exact readReg_storeReg_same hmask v s
  · unfold busRead
    cases hr' : regAt off with
    | none => rfl
    | some r' =>
      exact readReg_storeReg_other (fun he => hoff (regAt_inj (he ▸ hr') hr)) v s

end Sys2Proof.Machine
end

section
/-! The rules about commands and events: what acceptance latches, and which events move the history, the time input
and the result registers. -/

namespace Sys2Proof.Machine

/-! ### The CMD write (R33, R170) -/

/-- Settles O4: the first listed event is the write, and a word put first by `withFetchWord` is that word. -/
theorem stepRunsDecodedCommand : Obligations.StepRunsDecodedCommand := by
  intro w i s hd
  have hstep : ∀ (t : State) es, t.env.events = .write 0x08 w :: es →
      step t = exec i (t.withEvents es) := by
    intro t es he
    rw [step, he]
    exact runEvent_write_cmd_ok hd _
  have hword : tableWord 32 w.toNat = w := by
    rw [tableWord, Nat.mod_eq_of_lt w.isLt, BitVec.ofNat_toNat, BitVec.setWidth_eq]
  refine ⟨hstep s, ?_⟩
  rw [hstep (s.withFetchWord 32 w.toNat) s.env.events (by rw [State.withFetchWord, hword]; rfl)]
  rfl

/-- A window that fits passes the overflow check, which looks at the verify commands only (R177). -/
theorem windowOverflows_eq_false {i : Instr} {sn : Snap} {base : DWord}
    (hotp : i = .hotpVer → sn.counter.toNat + sn.window.toNat ≤ 2 ^ 64 - 1)
    (totp : (∃ u, i = .totpVer u) → base.toNat + sn.window.toNat ≤ 2 ^ 64 - 1) :
    windowOverflows i sn base = false := by
  cases i with
  | hotpVer => exact decide_eq_false (Nat.not_lt.mpr (hotp rfl))
  | totpVer u => exact decide_eq_false (Nat.not_lt.mpr (totp ⟨u, rfl⟩))
  | _ => rfl

/-- The base of the commands that take a time is the floor of the division (R140, R142). -/
theorem baseOf_time {i : Instr} (h : ∃ u, i = .t2c u ∨ i = .totpGen u ∨ i = .totpVer u)
    (sn : Snap) (old : DWord) :
    (baseOf i sn old).toNat = sn.time.toNat / sn.stepSecs.toNat := by
  obtain ⟨u, rfl | rfl | rfl⟩ := h <;> exact timeStep_toNat _ _

/-- Settles O23: acceptance is `accept` of the snapshot and base of the sampled time, and the values of ALG are
read off `algOfBits`. -/
theorem acceptanceLatchesOperands : Obligations.AcceptanceLatchesOperands := by
  refine ⟨fun i s tm e hb hl hdraw hhotp htotp => ?_, fun g => Iff.rfl, by decide, fun g hg => ?_⟩
  · have hs : (tm, e) = sampleTime i s := hdraw
    obtain rfl : tm = (sampleTime i s).1 := congrArg Prod.fst hs
    obtain rfl : e = (sampleTime i s).2 := congrArg Prod.snd hs
    refine ⟨baseFor i s, exec_accepts hb hl (windowOverflows_eq_false hhotp fun hv => ?_), ?_,
      fun ht => baseOf_time ht _ _⟩
    · obtain ⟨u, rfl⟩ := hv
      rw [baseOf_time ⟨u, by simp⟩]
      exact htotp ⟨u, rfl⟩
    · rintro (rfl | rfl) <;> rfl
  · obtain ⟨-, -, h3, -⟩ := hg
    unfold Regs.alg
    generalize g.algSel = b at h3 ⊢
    revert b
    decide

/-! ### The port and the history (R44) -/

/-- Settles O25: the arms of the two turns in which nothing is enabled. -/
theorem idleUnitRests : Obligations.IdleUnitRests := by
  refine fun s => ⟨unitStep_idle, fun hr => ?_⟩
  rw [runEvent, providerStep, hr]

/-- The known answers of the provider are kept by every event. -/
theorem answers_of_moves {e : Event} {s t : State} (m : Moves s e t) :
    t.env.answers = s.env.answers := by
  cases m with
  | command i =>
    obtain ⟨-, -, -, -, -, -, hanswers⟩ := issueCommand_frame i s
    exact hanswers
  | illegal => obtain ⟨st, heq⟩ := issueIllegal_frame s; rw [heq]
  | run i => rw [commandStep_env]
  | provider => obtain ⟨r, -, -, heq⟩ | ⟨-, heq⟩ := providerStep_cases s <;> rw [heq]
  | _ => rfl

/-- Settles O26: the provider's one step, the length of its answers, and that no event changes what it knows. -/
theorem providerAnswersRequest : Obligations.ProviderAnswersRequest := by
  refine ⟨fun s r hq hr => ?_, fun s a ha => ?_, fun _ _ _ _ => length_of_pHmac, by decide,
    fun e s t h alg m => pHmac_congr (answers_of_moves (moves_of_runEvent h)) alg m⟩
  · simp only [runEvent, providerStep, hq, hr]
  · obtain ⟨_, -, hr, -⟩ | ⟨-, heq⟩ := providerStep_cases s
    · exact absurd (hr.symm.trans ha) (by simp)
    · rw [runEvent, heq]

/-- A turn of a running command keeps the history, or sends one request from ISSUE to WAIT. -/
theorem commandStep_history (i : Instr) {s : State} (hp : s.phase ≠ .idle) :
    (commandStep i s).history = s.history ∨
      (s.phase = .issue ∧ (commandStep i s).phase = .wait ∧
        ∃ r, (commandStep i s).history = s.history ++ [r] ∧
          (commandStep i s).port.req = some r) := by
  obtain ⟨hph, -, heq⟩ | ⟨-, -, heq⟩ | ⟨-, -, heq⟩ | ⟨-, -, heq⟩ | ⟨d, -, -, heq⟩ | ⟨-, heq⟩ :=
    commandStep_cases i hp <;> rw [heq]
  · exact .inr ⟨hph, rfl, _, rfl, rfl⟩
  · exact .inl rfl
  · exact .inl rfl
  · exact .inl rfl
  · exact .inl (digested_history i d s)
  · obtain ⟨-, -, -, -, hhist, -⟩ := complete_frame i s
    exact .inl hhist

/-- Settles O27: only a turn of a running command touches the history. -/
theorem historyRecordsRequests : Obligations.HistoryRecordsRequests := by
  intro e s t h
  cases moves_of_runEvent h with
  | run i hp => exact (commandStep_history i hp).imp_right fun hreq => ⟨rfl, hreq⟩
  | command i =>
    obtain ⟨-, -, -, -, hhist, -⟩ := issueCommand_frame i s
    exact .inl hhist
  | illegal => obtain ⟨st, heq⟩ := issueIllegal_frame s; exact .inl (by rw [heq])
  | provider =>
    obtain ⟨r, -, -, heq⟩ | ⟨-, heq⟩ := providerStep_cases s <;> exact .inl (by rw [heq])
  | _ => exact .inl rfl

/-! ### The time input (R45) -/

/-- A window that overflows is a verify command's; with U = 1 it is TOTP_VER.NOW's (R82, R177). -/
theorem eq_totpVer_of_overflow {i : Instr} {sn : Snap} {base : DWord} (hu : i.useNow = true)
    (h : windowOverflows i sn base = true) : i = .totpVer true := by
  cases i with
  | totpVer u => exact congrArg Instr.totpVer hu
  | trunc | hotpGen | hotpVer | zeroize => cases hu
  | t2c | totpGen => cases h

/-- A CMD write of a command leaves the time input, or it draws once: by an accepted command of an idle unit, which
latches the value, or by a TOTP_VER.NOW that overflows. -/
theorem issueCommand_draw (i : Instr) (s : State) :
    (issueCommand i s).env = s.env ∨
      ((issueCommand i s).env = (drawNow s.env).2 ∧ s.busy = false ∧ i.useNow = true ∧
        ((issueCommand i s).phase = .issue ∧
            (issueCommand i s).snap.time = (drawNow s.env).1 ∨
          i = .totpVer true ∧ (issueCommand i s).phase = .idle ∧
            (issueCommand i s).status.err = some .cfgOverflow)) := by
  cases hb : s.busy with
  | true => exact .inl (by rw [issueCommand_busy hb]; rfl)
  | false =>
    rw [issueCommand_idle hb]
    cases hu : i.useNow with
    | false =>
      have he : (sampleTime i s).2 = s.env := by rw [sampleTime_of_register hu]
      obtain ⟨c, -, heq⟩ | ⟨-, -, heq⟩ | ⟨-, -, heq⟩ := decideCommand_cases i s <;>
        rw [heq]
      · exact .inl rfl
      · exact .inl he
      · exact .inl he
    | true =>
      have he : sampleTime i s = drawNow s.env := sampleTime_of_useNow hu
      obtain ⟨c, -, heq⟩ | ⟨-, ho, heq⟩ | ⟨-, -, heq⟩ := decideCommand_cases i s <;> rw [heq]
      · exact .inl rfl
      · exact .inr ⟨congrArg Prod.snd he, rfl, rfl, .inr ⟨eq_totpVer_of_overflow hu ho,
          busy_false_iff.mp hb, rfl⟩⟩
      · exact .inr ⟨congrArg Prod.snd he, rfl, rfl, .inl ⟨rfl, congrArg Prod.fst he⟩⟩

/-- Settles O29: only the CMD write of a command can draw. -/
theorem timeSampledAtAcceptance : Obligations.TimeSampledAtAcceptance := by
  refine ⟨fun e s t h => ?_, fun e v rest he => by rw [drawNow, he],
    fun e he => by rw [drawNow, he]⟩
  cases moves_of_runEvent h with
  | command i hr hd =>
    obtain hsame | ⟨hdraw, hb, hu, hres⟩ := issueCommand_draw i s
    · exact .inl (by rw [hsame]; exact ⟨rfl, rfl⟩)
    · exact .inr ⟨hdraw, hb, _, _, i, rfl, (regAt_cmd_iff _).mp hr, hd, hu, hres⟩
  | illegal => obtain ⟨st, heq⟩ := issueIllegal_frame s; exact .inl (by rw [heq]; exact ⟨rfl, rfl⟩)
  | run i => exact .inl (by rw [commandStep_env]; exact ⟨rfl, rfl⟩)
  | provider =>
    obtain ⟨r, -, -, heq⟩ | ⟨-, heq⟩ := providerStep_cases s <;>
      exact .inl (by rw [heq]; exact ⟨rfl, rfl⟩)
  | _ => exact .inl ⟨rfl, rfl⟩

/-! ### The result registers (R34 to R38) -/

/-- A turn of a running command leaves the result registers, or is its completion. -/
theorem commandStep_results (i : Instr) {s : State} (hp : s.phase ≠ .idle) :
    (commandStep i s).results = s.results ∨
      (s.phase = .finish ∧ commandStep i s = complete i s) := by
  obtain ⟨-, -, heq⟩ | ⟨-, -, heq⟩ | ⟨-, -, heq⟩ | ⟨-, -, heq⟩ | ⟨d, -, -, heq⟩ | ⟨hph, heq⟩ :=
    commandStep_cases i hp <;> rw [heq]
  · exact .inl rfl
  · exact .inl rfl
  · exact .inl rfl
  · exact .inl rfl
  · exact .inl (digested_results i d s)
  · exact .inr ⟨hph, rfl⟩

/-- An event other than reset leaves the result registers, or is the completion of the latched command. -/
theorem results_of_moves {e : Event} {s t : State} (m : Moves s e t) (hreset : e ≠ .reset) :
    t.results = s.results ∨
      (e = .unit ∧ s.phase = .finish ∧ ∃ i, s.snap.op = some i ∧ t = complete i s) := by
  cases m with
  | run i hp ho =>
    exact (commandStep_results i hp).imp_right fun ⟨hph, heq⟩ => ⟨rfl, hph, i, ho, heq⟩
  | command i =>
    obtain ⟨-, hres, -⟩ := issueCommand_frame i s
    exact .inl hres
  | illegal => obtain ⟨st, heq⟩ := issueIllegal_frame s; exact .inl (by rw [heq])
  | provider =>
    obtain ⟨r, -, -, heq⟩ | ⟨-, heq⟩ := providerStep_cases s <;> exact .inl (by rw [heq])
  | reset => exact absurd rfl hreset
  | _ => exact .inl rfl

/-- Settles O49: only a completion writes the registers, and the laws of `complete` say which command's. -/
theorem resultWriters : Obligations.ResultWriters := by
  intro e s t h hreset
  obtain hres | ⟨rfl, hp, i, ho, rfl⟩ := results_of_moves (moves_of_runEvent h) hreset
  · simp [hres]
  obtain ⟨hidle, hdone, -⟩ := complete_frame i s
  refine ⟨fun hch => ⟨rfl, hp, hidle, hdone, i, ho, ?_⟩,
    fun hch => ⟨rfl, hp, hidle, hdone, i, ho, (complete_tstep_cases i s).resolve_left hch⟩,
    fun hch => ⟨rfl, hp, hidle, hdone, i, ho, ?_⟩⟩
  · obtain ⟨hnum, hchr⟩ | ⟨rfl, -⟩ | ⟨rfl, -⟩ | ⟨hg, hf, -⟩ := complete_code_cases i s
    · exact absurd hch (by simp [hnum, hchr])
    · exact .inl rfl
    · exact .inr (.inl rfl)
    · exact .inr (.inr ⟨hg, hf⟩)
  · obtain ⟨hctr, hoff, -⟩ | ⟨rfl, -⟩ | ⟨rfl | hu, -⟩ := complete_match_cases i s
    · exact absurd hch (by simp [hctr, hoff])
    · exact .inr (.inl rfl)
    · exact .inl rfl
    · exact .inr (.inr hu)

end Sys2Proof.Machine
end

section
/-! The host's window on the unit (R60 to R75): its place on the platform, the two bus primitives, the order of the
agents' steps, and the turns that do not look at what the host writes. -/

namespace Sys2Proof.Machine

/-! ### The window (R60, R66, R69) -/

/-- Settles O15: the arm of a narrow access. -/
theorem narrowAccessRefused : Obligations.NarrowAccessRefused := by
  intro off s
  rfl

/-- Settles O16: an offset is below 256, and the distance of `P_BASE + off` from `P_BASE` is that offset. -/
theorem windowAtPlatformBase : Obligations.WindowAtPlatformBase := by
  refine fun pBase addr => ⟨fun off => ?_, ?_⟩
  · rw [windowOffset, if_pos ⟨Nat.le_add_right _ _, Nat.add_lt_add_left off.isLt _⟩,
      Nat.add_sub_cancel_left, BitVec.ofNat_toNat, BitVec.setWidth_eq]
  · unfold windowOffset
    split_ifs with hin
    · simp only [false_iff]
      omega
    · simp only [true_iff]
      omega

/-! ### The bus primitives (R61, R68) -/

/-- The low two offset bits are not carried, and a bus access sees its offset by the map only (R61). -/
theorem busRead_word (off : BitVec 8) (s : State) : busRead (off &&& 0xFC) s = busRead off s := by
  rw [busRead, regAt_word]
  rfl

theorem busWrite_word (off : BitVec 8) (v : Word) (s : State) :
    busWrite (off &&& 0xFC) v s = busWrite off v s := by
  rw [busWrite, regAt_word]
  rfl

/-- A bus write answers a next state, whatever its offset reaches (R61). -/
theorem busWrite_safe (off : BitVec 8) (v : Word) (s : State) : Safe (busWrite off v s) := by
  obtain ⟨-, heq⟩ | ⟨-, i, -, heq⟩ | ⟨-, _, -, heq⟩ | ⟨-, heq⟩ | ⟨r, -, -, -, heq⟩ :=
    busWrite_cases off v s
  · exact ⟨_, heq⟩
  · exact ⟨_, heq.trans (exec_eq i s)⟩
  · exact ⟨_, heq⟩
  · exact ⟨_, heq⟩
  · exact ⟨_, heq⟩

/-- Settles O6: the map does not see the low two bits, and has no register from 0xA0 on. -/
theorem busPrimitivesNeverFail : Obligations.BusPrimitivesNeverFail := by
  refine fun off v s => ⟨rfl, (busRead_word off s).symm, (busWrite_word off v s).symm,
    busWrite_safe off v s, fun hoff => ?_⟩
  have hnone : regAt off = none := (regAt_none_iff off).mpr hoff
  exact ⟨by rw [busRead, hnone], by rw [runEvent, busWrite, hnone]⟩

/-! ### The order of the agents' steps (R71) -/

/-- A step takes the first event off the list and runs it; the event sees no difference. -/
theorem step_withEvents_cons (e : Event) (es : List Event) (s : State) :
    step (s.withEvents (e :: es)) = mapNext (·.withEvents es) (runEvent e s) :=
  runEvent_withEvents e s es

/-- A run of the machine is a step of it, and the rest of the run where the step answers a next state. -/
theorem core_run_succ (k : Nat) (s : State) :
    Sys2Proof.core.run (k + 1) s =
      match step s with
      | .next t => Sys2Proof.core.run k t
      | .fault r => .fault r
      | .refused r => .refused r := by
  cases h : step s <;> simp only [Host.Core.run, Host.Check.core_step, h]

/-- Settles O5, by induction on the list: a step and `runEvents` both run its first event, with other events behind it. -/
theorem stepsFollowEventOrder : Obligations.StepsFollowEventOrder := by
  intro es rest s
  induction es generalizing s with
  | nil => rfl
  | cons e es ih =>
    rw [List.length_cons, List.cons_append, core_run_succ, step_withEvents_cons, runEvents,
      runEvent_withEvents]
    cases runEvent e s with
    | next t => exact ih t
    | fault r => rfl
    | refused r => rfl

/-! ### The turns of the unit and the provider (R75, R218) -/

/-- The turn of the unit in FINISH completes the latched command (R40). -/
theorem runEvent_unit_finish {i : Instr} {s : State} (hp : s.phase = .finish)
    (ho : s.snap.op = some i) : runEvent .unit s = .next (complete i s) := by
  rw [runEvent, unitStep_running (by simp [hp]) ho, commandStep_finish hp]

/-- The provider looks at no register the host writes (R44). -/
theorem providerStep_withRegs (s : State) (g : Regs) :
    providerStep { s with regs := g } = { providerStep s with regs := g } := by
  simp only [providerStep]
  split <;> rfl

/-- A step of a running command that does not complete ZEROIZE looks at no register the host writes (R41). -/
theorem commandStep_withRegs {i : Instr} {s : State} (hz : s.phase = .finish → i ≠ .zeroize)
    (g : Regs) : commandStep i { s with regs := g } = { commandStep i s with regs := g } := by
  refine (commandStep_replaced hz s.env g).trans ?_
  rw [State.replaced, ← commandStep_env i s]

/-- A turn of the unit or of the provider that does not complete ZEROIZE looks at no register the host writes. -/
theorem runEvent_withRegs {e : Event} {s t : State} (he : e = .unit ∨ e = .provider)
    (h : runEvent e s = .next t)
    (hz : ¬(e = .unit ∧ s.phase = .finish ∧ s.snap.op = some .zeroize)) (g : Regs) :
    runEvent e { s with regs := g } = .next { t with regs := g } := by
  obtain rfl | rfl := he
  · obtain ⟨hp, rfl⟩ | ⟨i, hp, ho, rfl⟩ := unitStep_cases h
    · exact unitStep_idle hp
    · have hi : s.phase = .finish → i ≠ .zeroize := fun hf hi => hz ⟨rfl, hf, hi ▸ ho⟩
      rw [← commandStep_withRegs hi]
      exact unitStep_running hp ho
  · cases h
    rw [runEvent, providerStep_withRegs]

/-- Settles O24: ZEROIZE's completion clears three registers of whatever it finds; any other turn, run with the registers
there are, puts these same registers back. -/
theorem runningCommandIgnoresRegisters : Obligations.RunningCommandIgnoresRegisters := by
  refine fun s t g e he h => ⟨?_, fun hz => ⟨?_, runEvent_withRegs he h hz g⟩⟩
  · rintro ⟨rfl, hp, ho⟩
    obtain rfl : complete .zeroize s = t :=
      Host.Outcome.next.inj ((runEvent_unit_finish hp ho).symm.trans h)
    exact ⟨rfl, runEvent_unit_finish (s := { s with regs := g }) hp ho⟩
  · have hsame : t = { t with regs := s.regs } :=
      Host.Outcome.next.inj (h.symm.trans (runEvent_withRegs he h hz s.regs))
    rw [hsame]

end Sys2Proof.Machine
end

section
/-! The command words (R80 to R86): a word is its three fields, and the decoder inverts the encoder. -/

namespace Sys2Proof

/-! ### A word and its fields (R80) -/

/-- The word `{RSV, U, OP}` of the fields (R80). -/
def CmdFields.toWord (f : CmdFields) : Word := f.rsv ++ BitVec.ofBool f.useNow ++ f.op

theorem getLsbD_toWord (f : CmdFields) (k : Nat) :
    f.toWord.getLsbD k =
      if k < 4 then f.op.getLsbD k else if k < 5 then f.useNow else f.rsv.getLsbD (k - 5) := by
  refine BitVec.getLsbD_append.trans ?_
  rw [BitVec.getLsbD_append, BitVec.getLsbD_ofBool]
  by_cases h4 : k < 4
  · rw [if_pos h4, if_pos h4]
  rw [if_neg h4, if_neg h4]
  by_cases h5 : k < 5
  · obtain rfl : k = 4 := by omega
    rfl
  · have h1 : ¬ k - 4 < 1 := by omega
    rw [if_neg h1, if_neg h5, Nat.sub_sub]

@[simp] theorem toWord_ofWord (w : Word) : (CmdFields.ofWord w).toWord = w := by
  refine BitVec.eq_of_getLsbD_eq fun k hk => ?_
  simp only [getLsbD_toWord, CmdFields.ofWord, BitVec.getLsbD_extractLsb']
  by_cases h4 : k < 4
  · simp [h4]
  by_cases h5 : k < 5
  · obtain rfl : k = 4 := by omega
    rfl
  · have hback : 5 + (k - 5) = k := by omega
    have hin : k - 5 < 27 := by omega
    simp [h4, h5, hback, hin]

@[simp] theorem ofWord_toWord (f : CmdFields) : CmdFields.ofWord f.toWord = f := by
  have hop : f.toWord.extractLsb' 0 4 = f.op := by
    refine BitVec.eq_of_getLsbD_eq fun k hk => ?_
    simp [getLsbD_toWord, hk]
  have hu : f.toWord.getLsbD 4 = f.useNow := getLsbD_toWord f 4
  have hrsv : f.toWord.extractLsb' 5 27 = f.rsv := by
    refine BitVec.eq_of_getLsbD_eq fun k hk => ?_
    have h4 : ¬ 5 + k < 4 := by omega
    simp [getLsbD_toWord, hk, h4]
  rw [CmdFields.ofWord, hop, hu, hrsv]

/-- The fields of a command's word (R81 to R83). -/
def Instr.fields (i : Instr) : CmdFields := { op := opcode i, useNow := i.useNow, rsv := 0 }

theorem encode_eq_toWord (i : Instr) : encode i = i.fields.toWord := rfl

theorem encode_eq_iff (i : Instr) (w : Word) : encode i = w ↔ CmdFields.ofWord w = i.fields := by
  rw [encode_eq_toWord]
  constructor
  · rintro rfl
    exact ofWord_toWord i.fields
  · intro h
    rw [← h, toWord_ofWord]

/-! ### What the decoder answers (R84) -/

@[simp] theorem fields_wellFormed (i : Instr) : i.fields.wellFormed = true := by
  cases i with
  | t2c u | totpGen u | totpVer u => cases u <;> rfl
  | trunc | hotpGen | hotpVer | zeroize => rfl

/-- The three ways a word can be ill formed (R81, R82, R83). -/
theorem wellFormed_eq_false_iff (f : CmdFields) :
    f.wellFormed = false ↔ f.rsv ≠ 0 ∨ f.op = 0 ∨ 8 ≤ f.op.toNat ∨
      (f.useNow = true ∧ f.op ≠ 2 ∧ f.op ≠ 4 ∧ f.op ≠ 6) := by
  have hrsv : f.rsvClear = false ↔ f.rsv ≠ 0 := beq_eq_false_iff_ne
  have hop : f.opAssigned = false ↔ f.op = 0 ∨ 8 ≤ f.op.toNat := by
    rw [← BitVec.toNat_inj]
    simp only [CmdFields.opAssigned, Bool.and_eq_false_iff, decide_eq_false_iff_not,
      BitVec.ofNat_eq_ofNat, BitVec.toNat_zero]
    omega
  have hu : f.useNowAllowed = false ↔
      f.useNow = true ∧ f.op ≠ 2 ∧ f.op ≠ 4 ∧ f.op ≠ 6 := by
    simp [CmdFields.useNowAllowed, and_assoc]
  rw [CmdFields.wellFormed, Bool.and_eq_false_iff, Bool.and_eq_false_iff, hrsv, hop, hu, or_assoc,
    or_assoc]

/-- A command that takes no time, on fields with its opcode: accepted with U = 0, ill formed with U = 1 (R82). -/
theorem withoutNow_cases {i : Instr} {u : Bool} (hi : i.useNow = false)
    (hbad : CmdFields.useNowAllowed ⟨opcode i, true, 0⟩ = false) :
    (∃ j, withoutNow ⟨opcode i, u, 0⟩ i = .ok j ∧ ⟨opcode i, u, 0⟩ = j.fields) ∨
      ∃ e, withoutNow ⟨opcode i, u, 0⟩ i = .error e ∧
        CmdFields.wellFormed ⟨opcode i, u, 0⟩ = false := by
  cases u with
  | false => exact .inl ⟨i, rfl, by rw [Instr.fields, hi]⟩
  | true => exact .inr ⟨_, rfl, by rw [CmdFields.wellFormed, hbad, Bool.and_false]⟩

/-- The decoder answers a command whose fields the word has, or finds the word ill formed. -/
theorem decode_cases (w : Word) :
    (∃ i, decode w = .ok i ∧ CmdFields.ofWord w = i.fields) ∨
      ∃ e, decode w = .error e ∧ (CmdFields.ofWord w).wellFormed = false := by
  unfold decode
  generalize CmdFields.ofWord w = f
  obtain ⟨op, u, rsv⟩ := f
  by_cases hr : rsv = 0
  · subst hr
    have hop {n : Nat} (h : op.toNat = n) : op = BitVec.ofNat 4 n := by
      rw [← h, BitVec.ofNat_toNat, BitVec.setWidth_eq]
    simp only [ne_eq, not_true_eq_false, if_false]
    split
    next h => obtain rfl := hop h; exact withoutNow_cases (i := .trunc) rfl rfl
    next h => obtain rfl := hop h; exact .inl ⟨.t2c u, rfl, rfl⟩
    next h => obtain rfl := hop h; exact withoutNow_cases (i := .hotpGen) rfl rfl
    next h => obtain rfl := hop h; exact .inl ⟨.totpGen u, rfl, rfl⟩
    next h => obtain rfl := hop h; exact withoutNow_cases (i := .hotpVer) rfl rfl
    next h => obtain rfl := hop h; exact .inl ⟨.totpVer u, rfl, rfl⟩
    next h => obtain rfl := hop h; exact withoutNow_cases (i := .zeroize) rfl rfl
    next =>
      have hres : op = 0 ∨ 8 ≤ op.toNat := by
        rw [← BitVec.toNat_inj, BitVec.ofNat_eq_ofNat, BitVec.toNat_zero]
        grind
      exact .inr ⟨_, rfl, (wellFormed_eq_false_iff _).mpr (.inr (or_assoc.mp (.inl hres)))⟩
  · exact .inr ⟨.reservedBits, if_pos hr, (wellFormed_eq_false_iff _).mpr (.inl hr)⟩

theorem decode_of_fields {w : Word} {i : Instr} (h : CmdFields.ofWord w = i.fields) :
    decode w = .ok i := by
  simp only [decode, h]
  cases i <;> rfl

theorem decode_eq_ok_iff (w : Word) (i : Instr) :
    decode w = .ok i ↔ CmdFields.ofWord w = i.fields := by
  refine ⟨fun h => ?_, decode_of_fields⟩
  obtain ⟨j, hd, hf⟩ | ⟨e, hd, -⟩ := decode_cases w <;> cases hd.symm.trans h
  exact hf

theorem decode_eq_error_iff (w : Word) :
    (∃ e, decode w = .error e) ↔ (CmdFields.ofWord w).wellFormed = false := by
  obtain ⟨i, hd, hf⟩ | ⟨e, hd, hf⟩ := decode_cases w
  · simp [hd, hf]
  · simp [hd, hf]

@[simp] theorem decode_encode (i : Instr) : decode (encode i) = .ok i :=
  decode_of_fields ((encode_eq_iff i _).mp rfl)

/-! ### The statements -/

/-- Settles O2: both sides say that the word has the fields of the command. -/
theorem decodeInvertsEncode : Obligations.DecodeInvertsEncode :=
  fun w i => (decode_eq_ok_iff w i).trans (encode_eq_iff i w).symm

/-- Settles O3: the words that are not well formed, the fields of a command, and the rejection by an idle unit. -/
theorem decodeIsTotal : Obligations.DecodeIsTotal := by
  refine fun w => ⟨(decode_eq_error_iff w).trans (wellFormed_eq_false_iff _), fun i h => ?_,
    fun e s h hb => ?_⟩
  · have hf := (decode_eq_ok_iff w i).mp h
    exact ⟨(congrArg CmdFields.op hf).symm, (congrArg CmdFields.useNow hf).symm⟩
  · rw [Machine.busWrite_cmd, Machine.writeCmd, h, Machine.issueIllegal_idle hb]
    rfl

/-- Settles O1: each word is the encoding of its command. -/
theorem legalWordsDecode : Obligations.LegalWordsDecode :=
  ⟨decode_encode .trunc, decode_encode (.t2c false), decode_encode (.t2c true),
    decode_encode .hotpGen, decode_encode (.totpGen false), decode_encode (.totpGen true),
    decode_encode .hotpVer, decode_encode (.totpVer false), decode_encode (.totpVer true),
    decode_encode .zeroize⟩

end Sys2Proof
end

section
/-! The truncation: its arithmetic on the bytes of a digest (R100), the decimal rendering (R101), and the command that
applies both to the digest the host loaded (R102). -/

namespace Sys2Proof.Machine

/-! ### The arithmetic of the truncation (R100, R103, R104) -/

/-- The offset is the last byte modulo 16 (R100). -/
theorem truncOffset_eq (d : List Byte) :
    truncOffset d = (d.getD (d.length - 1) 0).toNat % 16 := and_0F_toNat _

theorem truncOffset_lt (d : List Byte) : truncOffset d < 16 :=
  truncOffset_eq d ▸ Nat.mod_lt _ (by decide)

/-- A byte widened to a word and shifted by at most three bytes loses no bit. -/
theorem toNat_setWidth_shiftLeft (b : Byte) {k : Nat} (hk : k ≤ 24) :
    (b.setWidth 32 <<< k).toNat = b.toNat <<< k := by
  have hpow : b.toNat * 2 ^ k < 2 ^ 8 * 2 ^ 24 :=
    Nat.mul_lt_mul_of_lt_of_le b.isLt (Nat.pow_le_pow_right (by decide) hk) (by decide)
  rw [BitVec.toNat_shiftLeft, BitVec.toNat_setWidth_of_le (by decide), Nat.shiftLeft_eq,
    Nat.mod_eq_of_lt (by omega)]

/-- `binCode` is the four bytes from the offset by place value, the first without its top bit (R100). -/
theorem binCode_toNat (d : List Byte) :
    (binCode d).toNat =
      (d.getD (truncOffset d) 0).toNat % 128 * 2 ^ 24 +
        (d.getD (truncOffset d + 1) 0).toNat * 2 ^ 16 +
        (d.getD (truncOffset d + 2) 0).toNat * 2 ^ 8 + (d.getD (truncOffset d + 3) 0).toNat := by
  simp only [binCode, BitVec.toNat_or]
  rw [toNat_setWidth_shiftLeft _ (by decide), toNat_setWidth_shiftLeft _ (by decide),
    toNat_setWidth_shiftLeft _ (by decide), BitVec.toNat_setWidth_of_le (by decide), and_7F_toNat]
  exact or_of_four_bytes _ _ _ _ (BitVec.isLt _) (BitVec.isLt _) (BitVec.isLt _)

/-- `binCode` is read off the offset and the four bytes there (R104). -/
theorem binCode_congr {d d' : List Byte} (ho : truncOffset d' = truncOffset d)
    (hb : ∀ j < 4, d'.getD (truncOffset d + j) 0 = d.getD (truncOffset d + j) 0) :
    binCode d' = binCode d := by
  have h0 := hb 0 (by decide)
  rw [Nat.add_zero] at h0
  simp only [binCode, ho]
  rw [h0, hb 1 (by decide), hb 2 (by decide), hb 3 (by decide)]

/-- Settles O30: the masks are remainders, and the shifted bytes do not overlap. -/
theorem truncationArithmetic : Obligations.TruncationArithmetic := by
  intro d digits _ _ _
  have hoff := truncOffset_lt d
  have hbin := binCode_lt d
  exact ⟨truncOffset_eq d, by omega, binCode_toNat d, by omega, rfl⟩

/-- Settles O31: the low nibble gives the offset, and the offset's four bytes end before a legal digest's last. -/
theorem truncationReadsFiveBytes : Obligations.TruncationReadsFiveBytes := by
  intro d d' digits hlen hlen' hnibble hbytes
  have ho : truncOffset d' = truncOffset d := by
    rw [truncOffset_eq, truncOffset_eq, hlen', hnibble]
  have hbin : binCode d' = binCode d := binCode_congr ho (truncOffset_eq d ▸ hbytes)
  have hoff := truncOffset_lt d
  exact ⟨ho, hbin, by rw [truncCode, truncCode, hbin], by omega⟩

/-! ### The rendering (R101) -/

@[simp] theorem length_dec (code digits : Nat) : (dec code digits).length = digits := by
  simp [dec]

@[simp] theorem getElem_dec (code digits i : Nat) (h : i < (dec code digits).length) :
    (dec code digits)[i] = decChar code digits i := by
  simp [dec]

theorem getD_dec (code : Nat) {digits i : Nat} (h : i < digits) :
    (dec code digits).getD i 0 = decChar code digits i := by
  rw [List.getD_eq_getElem _ _ (by simpa using h), getElem_dec]

/-- The first `n` characters of the rendering spell the top `n` of the code's D digits. -/
theorem foldl_take_dec {code digits : Nat} (hcode : code < 10 ^ digits) (n : Nat)
    (hn : n ≤ digits) :
    ((dec code digits).take n).foldl (fun v c => 10 * v + (c.toNat - 0x30)) 0 =
      code / 10 ^ (digits - n) := by
  induction n with
  | zero => exact (Nat.div_eq_of_lt hcode).symm
  | succ n ih =>
    have hlen : n < (dec code digits).length := by simpa using hn
    have hchar : (decChar code digits n).toNat - 0x30 = code / 10 ^ (digits - (n + 1)) % 10 := by
      rw [decChar_toNat, Nat.add_sub_cancel_left, Nat.sub_sub, Nat.add_comm 1]
    have hpow : 10 ^ (digits - n) = 10 ^ (digits - (n + 1)) * 10 := by
      rw [← pow_succ, show digits - (n + 1) + 1 = digits - n by omega]
    calc ((dec code digits).take (n + 1)).foldl (fun v c => 10 * v + (c.toNat - 0x30)) 0
      _ = 10 * ((dec code digits).take n).foldl (fun v c => 10 * v + (c.toNat - 0x30)) 0
            + ((decChar code digits n).toNat - 0x30) := by
          rw [← List.take_append_getElem hlen, List.foldl_append, List.foldl_cons, List.foldl_nil,
            getElem_dec]
      _ = 10 * (code / 10 ^ (digits - (n + 1)) / 10) + code / 10 ^ (digits - (n + 1)) % 10 := by
          rw [ih (by omega), hchar, hpow, Nat.div_div_eq_div_mul]
      _ = code / 10 ^ (digits - (n + 1)) := Nat.div_add_mod _ 10

/-- Settles O33: `dec` puts one digit per index, and all D of them spell the whole code. -/
theorem decimalRendering : Obligations.DecimalRendering := by
  intro code digits hcode
  refine ⟨length_dec code digits, fun i hi => ?_, fun c hc => ?_, ?_⟩
  · rw [getD_dec code hi, decChar_toNat]
  · obtain ⟨i, -, rfl⟩ := List.mem_map.mp hc
    rw [decChar_toNat]
    omega
  · have hall := foldl_take_dec hcode digits le_rfl
    rwa [List.take_of_length_le (length_dec code digits).le, Nat.sub_self, pow_zero,
      Nat.div_one] at hall

/-- At D = 10 the reduce does nothing (R103). -/
theorem truncCode_ten (d : List Byte) : truncCode d 10 = (binCode d).toNat :=
  Nat.mod_eq_of_lt ((binCode_lt d).trans (by decide))

/-- Settles O32: a remainder is below its modulus and no more than `binCode`, whose tenth digit is 0, 1 or 2. -/
theorem codeBound : Obligations.CodeBound := by
  intro d digits _ _
  have hbin := binCode_lt d
  refine ⟨le_min ?_ ?_, truncCode_ten d, ?_⟩
  · exact Nat.le_sub_one_of_lt (Nat.mod_lt _ (by positivity))
  · exact (Nat.mod_le _ _).trans (Nat.le_sub_one_of_lt hbin)
  · have hfirst : (binCode d).toNat / 10 ^ 9 < 3 := by omega
    rw [codeString, truncCode_ten, getD_dec _ (by decide), decChar]
    generalize (binCode d).toNat / 10 ^ 9 = q at hfirst ⊢
    interval_cases q <;> decide

/-! ### TRUNC (R102) -/

/-- The ten characters of a code: the first D of its string, then 0x00 (R36, R102). -/
theorem getElem_codeChars (digits : Nat) (str : List Byte) (i : Fin 10) :
    (codeChars digits str)[i] = if i.val < digits then str.getD i.val 0 else 0x00 := by
  simp [codeChars, setChars]

/-- The digest TRUNC latches on a legal configuration: the first `L(ALG)` bytes of the buffer (R41, R102). -/
theorem truncDigest_snapFor {s : State} (hl : s.regs.legal) :
    truncDigest (snapFor .trunc s) = s.regs.dbuf.toList.take (digestLen s.regs.alg) := by
  rw [← algOfBits_of_legal hl s.snap.alg]
  rfl

/-- Settles O38: acceptance leaves nothing to scan, so the two turns are the last two of `runEvents_finish`. -/
theorem truncCompletes : Obligations.TruncCompletes := by
  refine ⟨fun s hb hl => ?_, fun _ _ => rfl, getElem_codeChars⟩
  rw [← truncDigest_snapFor hl]
  refine ⟨_, _, exec_accepts hb (.inr hl) rfl, rfl,
    runEvents_finish (i := .trunc) rfl rfl (Nat.zero_le _), rfl, ?_, rfl, rfl, rfl, rfl, rfl, rfl,
    rfl, rfl, rfl⟩
  exact truncCode_toNat _ _

end Sys2Proof.Machine
end

section
/-! From the CMD write of a command to its completion: the state acceptance leaves, the one request of a generating
command, and a verify's whole scan, to its last candidate (R125, R147) or to the first Fail (R126, R148). -/

namespace Sys2Proof.Machine

/-! ### The accepted command (R170) -/

/-- The state that the acceptance of `i` leaves (R170). -/
def started (i : Instr) (s : State) : State :=
  accept (snapFor i s) (baseFor i s) { s with env := (sampleTime i s).2 }

/-- An idle unit accepts a command on a legal configuration whose window does not overflow. -/
theorem exec_eq_started {i : Instr} {s : State} (hb : s.busy = false) (hl : s.regs.legal)
    (ho : windowOverflows i (snapFor i s) (baseFor i s) = false) :
    exec i s = .next (started i s) := exec_accepts hb (.inr hl) ho

/-- On a legal configuration acceptance latches the algorithm CONFIG selects (R24, R41). -/
theorem started_alg (i : Instr) {s : State} (hl : s.regs.legal) :
    (started i s).snap.alg = s.regs.alg := algOfBits_of_legal hl s.snap.alg

/-! ### The one request of a generating command (R122, R143) -/

/-- An answered request leaves the snapshot and the base, and the index goes up by one (R40). -/
theorem answered_frame (i : Instr) (d : List Byte) (t : State) :
    (answered i d t).snap = t.snap ∧ (answered i d t).scan.base = t.scan.base ∧
      (answered i d t).scan.k = t.scan.k + 1 := by
  obtain ⟨sc, hsc, hbase, hk, -⟩ := onDigest_frame i (candidate i t t.scan.k).1
    (candidate i t t.scan.k).2 (takeDigest d (requested i t))
  rw [answered, hsc]
  exact ⟨rfl, hbase, congrArg (· + 1) hk⟩

/-- The turns of a command with one request, answered Ok. -/
theorem runEvents_scanTurns_one {i : Instr} {t : State} {d : List Byte} (hp : t.phase = .issue)
    (ho : t.snap.op = some i) (hport : t.port.rsp = none) (hk : t.scan.k = 0)
    (hn : requestCount i t = 1)
    (ha : pHmac t.env t.snap.alg (be64 (candidate i t 0).1) = .ok d) :
    runEvents (scanTurns 1) t = .next (complete i ((answered i d t).withPhase .finish)) := by
  obtain ⟨hsnap, hbase, hnext⟩ := answered_frame i d t
  have hcount : requestCount i (answered i d t) = 1 := (requestCount_congr i hsnap hbase).trans hn
  calc runEvents (scanTurns 1) t
    _ = runEvents [.unit, .unit] (answered i d t) :=
        runEvents_request_ok hp ho (by omega) hport (by rwa [hk]) _
    _ = .next (complete i ((answered i d t).withPhase .finish)) :=
        runEvents_finish rfl (hsnap ▸ ho) (by omega)

/-- The code registers after the answer `Ok(d)` hold the truncation of `d` and its rendering (R100, R101). -/
theorem withWorkCode_answered {i : Instr} (hg : i = .hotpGen ∨ ∃ u, i = .totpGen u) (r : Results)
    (d : List Byte) (t : State) :
    r.withWorkCode t.snap.digits.toNat (answered i d t).scan =
      { r with
        codeNum := BitVec.ofNat 31 (truncCode d t.snap.digits.toNat)
        chr := codeChars t.snap.digits.toNat (codeString d t.snap.digits.toNat) } := by
  rw [← codeChars_setChars t.scan.wchr]
  obtain rfl | ⟨u, rfl⟩ := hg <;> rfl

/-! ### The whole scan of a verify command (R123, R145) -/

/-- The turns of a scan whose every request is answered Ok, match or no match (R125, R147). -/
theorem runEvents_scanTurns {i : Instr} (hv : i = .hotpVer ∨ ∃ u, i = .totpVer u) {t : State}
    {d : Nat → List Byte} {n : Nat} (hp : t.phase = .issue) (ho : t.snap.op = some i)
    (hport : t.port = { req := none, rsp := none }) (hk : t.scan.k = 0)
    (hf : t.scan.found = false) (hn : requestCount i t = n)
    (ha : ∀ j < n, pHmac t.env t.snap.alg (be64 (candidate i t j).1) = .ok (d j)) :
    runEvents (scanTurns n) t = .next (complete i ((scanned i t d n).withPhase .finish)) := by
  rw [scanTurns_eq, runEvents_scan hv d hp ho hport hk hf n hn.ge ha]
  exact runEvents_finish hp ho ((requestCount_scanned i t d n).trans hn).le

/-- The digest of an answer; Fail carries none. -/
def Answer.digest : Answer → List Byte
  | .ok d => d
  | .fail => []

theorem Answer.eq_ok_of_ne_fail {a : Answer} (h : a ≠ .fail) : a = .ok a.digest := by
  cases a with
  | ok d => rfl
  | fail => exact absurd rfl h

/-- The turns of a scan whose first `k` requests are answered Ok and the next one Fail (R126, R148). -/
theorem runEvents_scan_fail {i : Instr} (hv : i = .hotpVer ∨ ∃ u, i = .totpVer u) {t : State}
    {k : Nat} (hp : t.phase = .issue) (ho : t.snap.op = some i)
    (hport : t.port = { req := none, rsp := none }) (hk0 : t.scan.k = 0)
    (hf : t.scan.found = false) (hk : k < requestCount i t)
    (hok : ∀ j < k, pHmac t.env t.snap.alg (be64 (candidate i t j).1) ≠ .fail)
    (hfail : pHmac t.env t.snap.alg (be64 (candidate i t k).1) = .fail) :
    ∃ d, runEvents ((List.replicate (k + 1) [.unit, .provider, .unit]).flatten ++ [.unit]) t =
      .next (complete i ((takeFail (requested i (scanned i t d k))).withPhase .finish)) := by
  obtain ⟨d, hd⟩ : ∃ d : Nat → List Byte, ∀ j < k,
      pHmac t.env t.snap.alg (be64 (candidate i t j).1) = .ok (d j) :=
    ⟨_, fun j hj => Answer.eq_ok_of_ne_fail (hok j hj)⟩
  refine ⟨d, ?_⟩
  rw [List.replicate_succ', List.flatten_append, List.append_assoc,
    runEvents_scan hv d hp ho hport hk0 hf k hk.le hd]
  refine runEvents_request_fail hp ho ?_ (congrArg Port.rsp hport) ?_
  · rwa [requestCount_scanned]
  · rwa [candidate_scanned]

/-- The match registers after a scan report the first candidate that hits, or 0 (R124, R146). -/
theorem withMatch_scanned (r : Results) (i : Instr) (t : State) (d : Nat → List Byte) (n : Nat) :
    r.withMatch (scanned i t d n).scan =
      { r with
        matchCtr := (((List.range n).find? (hits t d)).map fun j => (candidate i t j).1).getD 0
        matchOff := (((List.range n).find? (hits t d)).map fun j =>
          BitVec.ofInt 64 (candidate i t j).2).getD 0 } := by
  cases hhit : (List.range n).find? (hits t d) <;> simp [Results.withMatch, scanned, hhit]

/-- The request of the current candidate, put on the history of a scan, makes it that of one more (R44). -/
theorem requested_scanned_history (i : Instr) (t : State) (d : Nat → List Byte) (k : Nat) :
    (requested i (scanned i t d k)).history =
      t.history ++ (List.range (k + 1)).map fun j => ⟨t.snap.alg, be64 (candidate i t j).1⟩ := by
  rw [List.range_succ, List.map_append, ← List.append_assoc, requested, withPhase_history,
    hmacRequest_history, candidate_scanned]
  rfl

end Sys2Proof.Machine
end

section
/-! HOTP (41_hotp.md): the comparator, and the two commands from the CMD write to completion. -/

namespace Sys2Proof.Machine

/-! ### The comparator (R120) -/

/-- Settles O34: all ten positions agree exactly when those below D do, D being at most ten. -/
theorem matchIsStringEquality : Obligations.MatchIsStringEquality := by
  intro str digits clen cand hd
  rw [matchCode, foldl_and]
  simp only [Bool.true_and, Bool.and_eq_true, List.all_eq_true, List.mem_range, beq_iff_eq]
  constructor
  · rintro ⟨hall, hlen⟩
    refine ⟨hlen, fun i hi => ?_⟩
    simpa [hi] using hall i (hi.trans_le hd)
  · rintro ⟨hlen, heq⟩
    refine ⟨fun i _ => ?_, hlen⟩
    split_ifs with hi
    · exact beq_iff_eq.mpr (heq i hi)
    · rfl

/-! ### What the commands' completions write (R122, R124, R126) -/

theorem complete_hotpGen_ok {s : State} (hf : s.scan.fail = false) :
    complete .hotpGen s =
      completeOk { s with results := s.results.withWorkCode s.snap.digits.toNat s.scan } :=
  if_neg (by simp [hf])

theorem complete_hotpVer_ok {s : State} (hf : s.scan.fail = false) :
    complete .hotpVer s = completeOk { s with
      status := { s.status with matched := s.scan.found }
      results := s.results.withMatch s.scan } :=
  if_neg (by simp [hf])

theorem complete_hotpVer_fail {s : State} (hf : s.scan.fail = true) :
    complete .hotpVer s = completeVerifyKeyFail s := if_pos hf

/-! ### HOTP_GEN (R122) -/

/-- Settles O40: one answered request leaves the working code that the completion copies. -/
theorem hotpGenCompletes : Obligations.HotpGenCompletes := by
  intro s d hb hl hport ha
  rw [← started_alg .hotpGen hl] at ha ⊢
  have hrun := runEvents_scanTurns_one (i := .hotpGen) (t := started .hotpGen s) rfl rfl
    (congrArg Port.rsp hport) rfl rfl ha
  rw [complete_hotpGen_ok rfl] at hrun
  exact ⟨_, _, exec_eq_started hb hl rfl, rfl, hrun,
    withWorkCode_answered (.inl rfl) s.results d (started .hotpGen s), truncCode_toNat d _,
    rfl, rfl, rfl, rfl, rfl, rfl, rfl, rfl⟩

/-! ### HOTP_VER (R123 to R126) -/

/-- An idle unit accepts HOTP_VER on a legal configuration when C + W fits in 64 bits (R177). -/
theorem exec_hotpVer_eq_started {s : State} (hb : s.busy = false) (hl : s.regs.legal)
    (hcw : (s.regs.counterHi ++ s.regs.counterLo).toNat + s.regs.window.toNat ≤ 2 ^ 64 - 1) :
    exec .hotpVer s = .next (started .hotpVer s) :=
  exec_eq_started hb hl (windowOverflows_eq_false (fun _ => hcw) (by simp))

/-- Settles O43: after all W + 1 answers `scanned` has every request in its history and the first hit in its scan
state. -/
theorem hotpVerScansWindow : Obligations.HotpVerScansWindow := by
  intro s d c w hit hb hl hport hc hw hcw ha hhit
  subst hc hw hhit
  rw [← started_alg .hotpVer hl] at ha ⊢
  have hrun := runEvents_scanTurns (d := d) (t := started .hotpVer s) (.inl rfl) rfl rfl hport rfl
    rfl rfl fun j hj => ha j (Nat.le_of_lt_succ hj)
  rw [complete_hotpVer_ok rfl] at hrun
  exact ⟨_, _, exec_hotpVer_eq_started hb hl hcw, rfl, hrun, rfl, rfl,
    withMatch_scanned s.results .hotpVer (started .hotpVer s) d _, rfl, rfl, rfl, rfl, hport, rfl⟩

/-- Settles O47: the Fail comes after `scanned` of the k answers before it, and the completion drops what that found. -/
theorem hotpVerKeyFail : Obligations.HotpVerKeyFail := by
  intro s c k hb hl hport hc hcw hk hok hfail
  subst hc
  rw [← started_alg .hotpVer hl] at hok hfail ⊢
  obtain ⟨d, hrun⟩ := runEvents_scan_fail (i := .hotpVer) (t := started .hotpVer s) (.inl rfl) rfl
    rfl hport rfl rfl (Nat.lt_succ_of_le hk) hok hfail
  rw [complete_hotpVer_fail rfl] at hrun
  exact ⟨_, _, exec_hotpVer_eq_started hb hl hcw, hrun, rfl, rfl,
    requested_scanned_history .hotpVer (started .hotpVer s) d k, rfl, rfl, rfl, rfl, rfl⟩

end Sys2Proof.Machine
end

section
/-! The time step (R140) and the order of the TOTP window (R142): what the time commands scan. -/

namespace Sys2Proof.Machine

/-! ### The divider (R140) -/

/-- Settles O35: the quotient does not wrap, and it is the floor of natural-number division. -/
theorem timeStepIsFloor : Obligations.TimeStepIsFloor := by
  intro tm secs hsecs
  rw [timeStep_toNat]
  refine ⟨Nat.div_mul_le_self _ _, ?_, Nat.div_le_self _ _⟩
  rw [Nat.mul_comm]
  exact Nat.lt_mul_div_succ _ hsecs

/-! ### The offsets of the window (R142) -/

theorem offsetOrder_odd (m : Nat) : offsetOrder (2 * m + 1) = -((m : Int) + 1) := by
  unfold offsetOrder
  split_ifs <;> omega

theorem offsetOrder_even (m : Nat) : offsetOrder (2 * m) = m := by
  unfold offsetOrder
  split_ifs <;> omega

/-- The index at which an offset stands in the order: -d at 2d - 1, +d at 2d. -/
def offsetIndex (off : Int) : Nat := if off < 0 then 2 * off.natAbs - 1 else 2 * off.natAbs

theorem offsetOrder_eq_iff (j : Nat) (off : Int) : offsetOrder j = off ↔ j = offsetIndex off := by
  unfold offsetIndex
  obtain ⟨m, rfl | rfl⟩ := Nat.even_or_odd' j
  · rw [offsetOrder_even]
    split_ifs <;> omega
  · rw [offsetOrder_odd]
    split_ifs <;> omega

/-- The order goes outwards, and at equal distance the past offset comes first. -/
theorem offsetOrder_before {j k : Nat} (h : j < k) :
    (offsetOrder j).natAbs < (offsetOrder k).natAbs ∨
      ((offsetOrder j).natAbs = (offsetOrder k).natAbs ∧ offsetOrder j < offsetOrder k) := by
  unfold offsetOrder
  split_ifs <;> omega

/-- A window one wider has one more future counter, and one more past counter unless that is
negative (R144). -/
theorem length_totpIndices_succ (t w : Nat) :
    (totpIndices t (w + 1)).length =
      (totpIndices t w).length + (if w + 1 ≤ t then 1 else 0) + 1 := by
  have hpast : 0 ≤ (t : Int) + offsetOrder (2 * w + 1) ↔ w + 1 ≤ t := by
    rw [offsetOrder_odd]
    omega
  have hfuture : 0 ≤ (t : Int) + offsetOrder (2 * w + 1 + 1) := by
    rw [show 2 * w + 1 + 1 = 2 * (w + 1) by ring, offsetOrder_even]
    omega
  rw [totpIndices, totpIndices, show 2 * (w + 1) + 1 = 2 * w + 1 + 1 + 1 by ring]
  simp only [← List.countP_eq_length_filter, List.range_succ, List.countP_append,
    List.countP_singleton, hpast, hfuture, decide_eq_true_eq, decide_true, if_true]

theorem length_totpIndices (t w : Nat) : (totpIndices t w).length = (w + 1) + min w t := by
  induction w with
  | zero => simp [totpIndices, offsetOrder]
  | succ w ih =>
    rw [length_totpIndices_succ, ih]
    split_ifs <;> omega

/-- The offsets scanned from time step `t` with a window of `w`, in scan order (R142). -/
def windowOffsets (t w : Nat) : List Int := (totpIndices t w).map offsetOrder

theorem mem_windowOffsets (t w : Nat) (off : Int) :
    off ∈ windowOffsets t w ↔ -(w : Int) ≤ off ∧ off ≤ w ∧ 0 ≤ (t : Int) + off := by
  have hindex : offsetIndex off < 2 * w + 1 ↔ -(w : Int) ≤ off ∧ off ≤ w := by
    unfold offsetIndex
    split_ifs <;> omega
  have horder : offsetOrder (offsetIndex off) = off := (offsetOrder_eq_iff _ _).2 rfl
  simp only [windowOffsets, totpIndices, List.mem_map, List.mem_filter, List.mem_range,
    decide_eq_true_eq, offsetOrder_eq_iff, exists_eq_right, horder, hindex]
  exact and_assoc

theorem pairwise_windowOffsets (t w : Nat) :
    (windowOffsets t w).Pairwise
      fun a b => a.natAbs < b.natAbs ∨ (a.natAbs = b.natAbs ∧ a < b) :=
  List.pairwise_map.2 <| (List.pairwise_lt_range.filter _).imp offsetOrder_before

/-- Settles O36: the indices ascend, and each offset stands at one index. -/
theorem totpWindowOrder : Obligations.TotpWindowOrder := fun t w =>
  ⟨length_totpIndices t w, mem_windowOffsets t w, pairwise_windowOffsets t w⟩

/-! ### The offsets by index -/

/-- Reading a list at its first indices, one after another, reads its first entries. -/
theorem map_range_getD_append {α : Type} (f : Int → α) (l r : List Int) :
    (List.range l.length).map (fun j => f ((l ++ r).getD j 0)) = l.map f := by
  have hget : (List.range l.length).map (fun j => (l ++ r).getD j 0) = l := by
    conv_rhs => rw [← map_getD_range l]
    refine List.map_congr_left fun j hj => ?_
    rw [List.getD_append _ _ _ _ (List.mem_range.1 hj)]
  conv_rhs => rw [← hget, List.map_map]
  rfl

/-- The first entry that satisfies `p` is the entry at the first index that does. -/
theorem find?_eq_map_find?_range (p : Int → Bool) (l : List Int) :
    l.find? p =
      ((List.range l.length).find? fun j => p (l.getD j 0)).map fun j => l.getD j 0 := by
  conv_lhs => rw [← map_getD_range l, List.find?_map]
  rfl

/-- After a scan with one digest per entry of a list, WD holds the digest of the last entry (R43). -/
theorem wd_scanned_of_getLast? {l : List Int} {last : Int} (h : last ∈ l.getLast?) (i : Instr)
    (t : State) (d : Int → List Byte) :
    (scanned i t (fun k => d (l.getD k 0)) l.length).wd = d last := by
  rw [List.getLast?_eq_getElem?, Option.mem_def] at h
  obtain ⟨hlt, -⟩ := List.getElem?_eq_some_iff.1 h
  have hget : l.getD (l.length - 1) 0 = last := by
    rw [List.getD_eq_getElem?_getD, h]
    rfl
  exact (if_neg (by omega)).trans (congrArg d hget)

/-! ### The candidates of TOTP_VER -/

section
variable {t : State} {offs : List Int}
  (h : windowOffsets t.scan.base.toNat t.snap.window.toNat = offs) (useNow : Bool)
include h

/-- The k-th candidate of TOTP_VER is the counter at the k-th offset of its window (R142). -/
theorem candidate_totpVer (k : Nat) :
    candidate (.totpVer useNow) t k =
      (BitVec.ofInt 64 (t.scan.base.toNat + offs.getD k 0), offs.getD k 0) := by
  have hoff : offs.getD k 0 =
      offsetOrder ((totpIndices t.scan.base.toNat t.snap.window.toNat).getD k 0) := by
    rw [← h]
    exact List.getD_map (d := 0) ..
  rw [hoff]
  rfl

theorem requestCount_totpVer : requestCount (.totpVer useNow) t = offs.length := by
  rw [← h]
  exact (List.length_map offsetOrder).symm

/-- The match registers after a scan report the counter and the offset of the first hit, or 0 (R146). -/
theorem withMatch_totpVer {d : Nat → List Byte} {n : Nat} {hit : Option Int} (r : Results)
    (hhit : hit = ((List.range n).find? (hits t d)).map fun j => offs.getD j 0) :
    r.withMatch (scanned (.totpVer useNow) t d n).scan =
      { r with
        matchCtr := (hit.map fun off => BitVec.ofInt 64 (t.scan.base.toNat + off)).getD 0
        matchOff := (hit.map fun off => BitVec.ofInt 64 off).getD 0 } := by
  rw [withMatch_scanned, hhit, Option.map_map, Option.map_map]
  simp only [candidate_totpVer h]
  rfl

end

/-- The requests of the first offsets of the window, in scan order (R142, R147). -/
theorem requests_totpVer {t : State} {done rest : List Int}
    (h : windowOffsets t.scan.base.toNat t.snap.window.toNat = done ++ rest) (useNow : Bool) :
    ((List.range done.length).map fun j =>
        (⟨t.snap.alg, be64 (candidate (.totpVer useNow) t j).1⟩ : Req)) =
      done.map fun off => ⟨t.snap.alg, be64 (BitVec.ofInt 64 (t.scan.base.toNat + off))⟩ := by
  simp only [candidate_totpVer h]
  exact map_range_getD_append
    (fun off => (⟨t.snap.alg, be64 (BitVec.ofInt 64 (t.scan.base.toNat + off))⟩ : Req)) done rest

end Sys2Proof.Machine
end

section
/-! TOTP (42_totp.md): the time commands from the CMD write to completion. -/

namespace Sys2Proof.Machine

/-! ### What the time commands start from (R41, R170) -/

/-- The time a command samples: the one draw of the time input for U = 1, TIME for U = 0 (R82). -/
theorem sampleTime_fst (i : Instr) (useNow : Bool) (hu : i.useNow = useNow) (s : State) :
    (sampleTime i s).1 =
      if useNow then (drawNow s.env).1 else s.regs.timeHi ++ s.regs.timeLo := by
  subst hu
  exact apply_ite Prod.fst _ _ _

/-- Only a draw of the time input moves the world (R45). -/
theorem sampleTime_snd (i : Instr) (useNow : Bool) (hu : i.useNow = useNow) (s : State) :
    (sampleTime i s).2 = if useNow then (drawNow s.env).2 else s.env := by
  subst hu
  exact apply_ite Prod.snd _ _ _

/-- A draw of the time input leaves the provider's function (R44). -/
theorem pHmac_started (i : Instr) (s : State) (alg : Alg) (m : Msg) :
    pHmac (started i s).env alg m = pHmac s.env alg m := pHmac_congr (sampleTime_answers i s) alg m

/-- An idle unit accepts TOTP_VER on a legal configuration when T + W fits in 64 bits (R177). -/
theorem exec_totpVer_eq_started {useNow : Bool} {s : State} (hb : s.busy = false)
    (hl : s.regs.legal)
    (htw : (baseFor (.totpVer useNow) s).toNat + s.regs.window.toNat ≤ 2 ^ 64 - 1) :
    exec (.totpVer useNow) s = .next (started (.totpVer useNow) s) :=
  exec_eq_started hb hl (windowOverflows_eq_false (by simp) fun _ => htw)

/-! ### What the commands' completions write (R143, R146, R148) -/

theorem complete_totpGen_ok {useNow : Bool} {s : State} (hf : s.scan.fail = false) :
    complete (.totpGen useNow) s = completeOk { s with
      results :=
        { s.results with tstep := s.scan.base }.withWorkCode s.snap.digits.toNat s.scan } :=
  if_neg (by simp [hf])

theorem complete_totpVer_ok {useNow : Bool} {s : State} (hf : s.scan.fail = false) :
    complete (.totpVer useNow) s = completeOk { s with
      status := { s.status with matched := s.scan.found }
      results := { s.results with tstep := s.scan.base }.withMatch s.scan } :=
  if_neg (by simp [hf])

theorem complete_totpVer_fail {useNow : Bool} {s : State} (hf : s.scan.fail = true) :
    complete (.totpVer useNow) s = completeVerifyKeyFail s := if_pos hf

/-! ### T2C (R141) -/

/-- Settles O39: nothing is scanned, so the two turns are the last two, and the completion divides. -/
theorem timeToCounterCompletes : Obligations.TimeToCounterCompletes := by
  intro useNow s hb hl
  rw [← sampleTime_fst (.t2c useNow) useNow rfl s,
    ← sampleTime_snd (.t2c useNow) useNow rfl s]
  exact ⟨_, _, exec_eq_started hb hl rfl, rfl,
    runEvents_finish (i := .t2c useNow) rfl rfl (Nat.zero_le _), rfl, timeStep_toNat _ _,
    rfl, rfl, rfl, rfl, rfl, rfl, rfl, rfl, rfl⟩

/-! ### TOTP_GEN (R143) -/

/-- Settles O41: one answered request leaves the working code, which the completion copies beside the base. -/
theorem totpGenCompletes : Obligations.TotpGenCompletes := by
  intro useNow s step d hb hl hport hstep ha
  rw [← sampleTime_fst (.totpGen useNow) useNow rfl s] at hstep
  rw [← sampleTime_snd (.totpGen useNow) useNow rfl s]
  subst hstep
  rw [← started_alg (.totpGen useNow) hl] at ha ⊢
  rw [← pHmac_started (.totpGen useNow)] at ha
  have hrun := runEvents_scanTurns_one (i := .totpGen useNow) (t := started (.totpGen useNow) s)
    rfl rfl (congrArg Port.rsp hport) rfl rfl ha
  rw [complete_totpGen_ok rfl] at hrun
  have hcode := withWorkCode_answered (.inr ⟨useNow, rfl⟩)
    { s.results with tstep := baseFor (.totpGen useNow) s } d (started (.totpGen useNow) s)
  exact ⟨_, _, exec_eq_started hb hl rfl, rfl, hrun, hcode, truncCode_toNat d _, rfl, rfl, rfl,
    rfl, rfl, rfl, rfl, rfl⟩

/-- Settles O42: both commands ask for the same counter, and both code registers hold the truncation of its digest. -/
theorem totpCodeIsHotpCode : Obligations.TotpCodeIsHotpCode := by
  intro s d hb hl hport ha s' hs'
  have hcounter : s'.regs.counterHi ++ s'.regs.counterLo =
      timeStep (timeValue s.regs) s.regs.stepSecs := by
    rw [hs']
    exact hiWord_append_loWord _
  obtain ⟨t, u, hexec, -, hrun, hres, -, hhist, hstat, -⟩ :=
    totpGenCompletes false s _ d hb hl hport rfl ha
  obtain ⟨t', u', hexec', -, hrun', hres', -, hhist', hstat', -⟩ :=
    hotpGenCompletes s' d (by rwa [hs']) (by rwa [hs']) (by rwa [hs'])
      (by rw [hcounter, hs']; exact ha)
  rw [hcounter] at hhist'
  subst hs'
  refine ⟨t, u, t', u', hexec, hrun, hexec', hrun', ?_, ?_, hhist.trans hhist'.symm,
    hstat.trans hstat'.symm, ?_, ?_⟩
  · rw [hres, hres']
  · rw [hres, hres']
  · rw [hres]; rfl
  · rw [hres']

/-! ### TOTP_VER (R145 to R148) -/

/-- Settles O44: after an answer per offset `scanned` has every request in its history and the first hit in its scan
state; the window's indices are read as its offsets. -/
theorem totpVerScansWindow : Obligations.TotpVerScansWindow := by
  intro useNow s d step offs hit hb hl hport hstep htw hoffs ha hhit
  rw [← sampleTime_fst (.totpVer useNow) useNow rfl s] at hstep
  rw [← sampleTime_snd (.totpVer useNow) useNow rfl s]
  rw [← started_alg (.totpVer useNow) hl] at ha ⊢
  subst hstep
  have hwin : windowOffsets (started (.totpVer useNow) s).scan.base.toNat
      (started (.totpVer useNow) s).snap.window.toNat = offs := hoffs.symm
  have hrun := runEvents_scanTurns (i := .totpVer useNow) (t := started (.totpVer useNow) s)
    (d := fun k => d (offs.getD k 0)) (.inr ⟨useNow, rfl⟩) rfl rfl hport rfl rfl
    (requestCount_totpVer hwin useNow) fun j hj => by
      rw [candidate_totpVer hwin, pHmac_started, List.getD_eq_getElem _ _ hj]
      exact ha _ (List.getElem_mem hj)
  rw [complete_totpVer_ok rfl] at hrun
  rw [find?_eq_map_find?_range] at hhit
  have hmatch := withMatch_totpVer hwin useNow
    { s.results with tstep := baseFor (.totpVer useNow) s } hhit
  have hfound := (congrArg Option.isSome hhit).trans Option.isSome_map
  have hreq := requests_totpVer (hwin.trans (List.append_nil _).symm) useNow
  rw [hfound]
  exact ⟨_, _, exec_totpVer_eq_started hb hl htw, rfl, hrun, congrArg (s.history ++ ·) hreq, rfl,
    hmatch, rfl, rfl, rfl, fun last hlast => wd_scanned_of_getLast? hlast (.totpVer useNow) _ d,
    hport, rfl⟩

/-- Settles O48: the Fail comes after `scanned` of the answers to the offsets before it, and the completion drops what
that found. -/
theorem totpVerKeyFail : Obligations.TotpVerKeyFail := by
  intro useNow s step done rest bad hb hl hport hstep htw hoffs hok hfail
  rw [← sampleTime_fst (.totpVer useNow) useNow rfl s] at hstep
  rw [← sampleTime_snd (.totpVer useNow) useNow rfl s]
  rw [← started_alg (.totpVer useNow) hl] at hok hfail ⊢
  subst hstep
  have hwin : windowOffsets (started (.totpVer useNow) s).scan.base.toNat
      (started (.totpVer useNow) s).snap.window.toNat = done ++ bad :: rest := hoffs
  obtain ⟨d, hrun⟩ := runEvents_scan_fail (i := .totpVer useNow)
    (t := started (.totpVer useNow) s) (k := done.length) (.inr ⟨useNow, rfl⟩) rfl rfl hport rfl rfl
    (by rw [requestCount_totpVer hwin]; simp)
    (fun j hj => by
      rw [candidate_totpVer hwin, pHmac_started, List.getD_append _ _ _ _ hj,
        List.getD_eq_getElem _ _ hj]
      exact hok _ (List.getElem_mem hj))
    (by
      rw [candidate_totpVer hwin, pHmac_started, List.getD_append_right _ _ _ _ le_rfl,
        Nat.sub_self]
      exact hfail)
  rw [complete_totpVer_fail rfl] at hrun
  have hhist := requested_scanned_history (.totpVer useNow) (started (.totpVer useNow) s) d
    done.length
  have hreq := requests_totpVer (done := done ++ [bad]) (rest := rest)
    (hwin.trans (List.append_cons ..)) useNow
  rw [List.length_append] at hreq
  exact ⟨_, _, exec_totpVer_eq_started hb hl htw, hrun, rfl, rfl,
    hhist.trans (congrArg (s.history ++ ·) hreq), rfl, rfl, rfl, rfl, rfl⟩

end Sys2Proof.Machine
end

section
/-! ZEROIZE (43_control.md) from the CMD write to completion. -/

namespace Sys2Proof.Machine

/-- An idle unit accepts ZEROIZE whatever CONFIG and STEP hold (R160, R170). -/
theorem exec_zeroize_eq_started {s : State} (hb : s.busy = false) :
    exec .zeroize s = .next (started .zeroize s) := exec_accepts hb (.inl rfl) rfl

/-- Settles O45: no configuration is checked and nothing is scanned, so the two turns are the last two, and the
completion clears. -/
theorem zeroizeCompletes : Obligations.ZeroizeCompletes := by
  intro s hb
  have hrun : runEvents [.unit, .unit] (started .zeroize s) =
      .next (complete .zeroize ((started .zeroize s).withPhase .finish)) :=
    runEvents_finish rfl rfl (Nat.zero_le _)
  exact ⟨_, _, exec_zeroize_eq_started hb, rfl, rfl, hrun, rfl, rfl, rfl,
    fun _ => List.eq_of_mem_replicate, rfl, rfl, rfl, rfl, rfl, rfl, rfl, rfl, rfl⟩

end Sys2Proof.Machine
end

section
/-! The errors of the unit (60_exceptions.md): what a CMD write records and in which order, what makes OVERRUN fall,
the KEY_FAIL of the generating commands, and that no consistent unit faults. -/

namespace Sys2Proof.Machine

/-! ### A CMD write on the bus (R170, R173, R174) -/

/-- A busy unit drops any word written to CMD (R173). -/
theorem busWrite_cmd_busy (w : Word) {s : State} (hb : s.busy = true) :
    busWrite 0x08 w s = .next (overrun s) := by
  rw [busWrite_cmd, writeCmd]
  cases decode w with
  | ok i => exact (exec_eq i s).trans (congrArg _ (issueCommand_busy hb))
  | error e => exact congrArg _ (issueIllegal_busy hb)

/-- A word that decodes is executed (R33). -/
theorem busWrite_cmd_ok {w : Word} {i : Instr} (hd : decode w = .ok i) (s : State) :
    busWrite 0x08 w s = exec i s := runEvent_write_cmd_ok hd s

/-- An idle unit decides on a command; it never drops it (R170). -/
theorem exec_idle (i : Instr) {s : State} (hb : s.busy = false) :
    exec i s = .next (decideCommand i s) := by rw [exec_eq, issueCommand_idle hb]

/-- A configuration error is what an idle unit rejects a command with (R170, R174). -/
theorem exec_rejects_configError {i : Instr} {s : State} {c : ErrCode} (hb : s.busy = false)
    (hc : configError i s.regs = some c) : exec i s = .next (reject c s) := by
  rw [exec_idle i hb, decideCommand, hc]

/-- A window that overflows is rejected after the time has been sampled (R170, R177). -/
theorem exec_rejects_overflow {i : Instr} {s : State} (hb : s.busy = false) (hl : s.regs.legal)
    (ho : windowOverflows i (snapFor i s) (baseFor i s) = true) :
    exec i s = .next (reject .cfgOverflow { s with env := (sampleTime i s).2 }) := by
  rw [exec_idle i hb, decideCommand, configError_eq_none_iff.mpr (.inr hl)]
  exact congrArg _ (if_pos ho)

/-! ### The order of the causes (R172, R179) -/

section
variable {i : Instr} {g : Regs} (hz : i ≠ .zeroize)
include hz

theorem configError_digits (hd : ¬(1 ≤ g.digits.toNat ∧ g.digits.toNat ≤ 10)) :
    configError i g = some .cfgDigits := by
  rw [configError, if_neg hz, if_pos hd]

theorem configError_alg (hd : 1 ≤ g.digits.toNat ∧ g.digits.toNat ≤ 10) (ha : g.algSel = 3) :
    configError i g = some .cfgAlg := by
  rw [configError, if_neg hz, if_neg (not_not.mpr hd), if_pos ha]

theorem configError_step (hd : 1 ≤ g.digits.toNat ∧ g.digits.toNat ≤ 10) (ha : g.algSel ≠ 3)
    (hs : g.stepSecs = 0) : configError i g = some .cfgStep := by
  rw [configError, if_neg hz, if_neg (not_not.mpr hd), if_neg ha, if_pos hs]

end

/-- Settles O20: `configError` reports its first cause, and without one the overflow check decides. -/
theorem errorPriority : Obligations.ErrorPriority := by
  refine fun w s => ⟨busWrite_cmd_busy w, fun hb => ⟨fun e hd => ?_, fun i hd hz => ?_⟩⟩
  · obtain ⟨-, -, hillegal⟩ := decodeIsTotal w
    exact hillegal e s hd hb
  · rw [busWrite_cmd_ok hd s]
    refine ⟨fun hdig => exec_rejects_configError hb (configError_digits hz hdig), fun h1 h10 =>
      ⟨fun halg => exec_rejects_configError hb (configError_alg hz ⟨h1, h10⟩ halg), fun halg =>
      ⟨fun hstep => exec_rejects_configError hb (configError_step hz ⟨h1, h10⟩ halg hstep),
        fun hstep drawn hdrawn => ?_⟩⟩⟩
    have hl : s.regs.legal := ⟨h1, h10, halg, hstep⟩
    subst hdrawn
    exact ⟨exec_rejects_overflow hb hl, exec_eq_started hb hl⟩

/-! ### Rejection and the overflow check (R174, R177) -/

/-- Settles O21: an idle unit rejects for the configuration, rejects for overflow, or accepts, and an acceptance leaves
IDLE. -/
theorem rejectionWritesStatusOnly : Obligations.RejectionWritesStatusOnly := by
  refine fun i s hb => ⟨_, exec_idle i hb, ?_⟩
  have hidle : s.phase = .idle := busy_false_iff.mp hb
  obtain ⟨c, hc, heq⟩ | ⟨-, -, heq⟩ | ⟨-, -, heq⟩ := decideCommand_cases i s <;> rw [heq]
  · refine ⟨fun _ => ⟨c, rfl, ?_⟩, fun hp => absurd hidle hp⟩
    obtain rfl | rfl | rfl := configError_range hc <;> decide
  · exact ⟨fun _ => ⟨.cfgOverflow, rfl, by decide⟩, fun hp => absurd hidle hp⟩
  · exact ⟨fun hp => (nomatch hp), fun _ => ⟨rfl, rfl⟩⟩

/-- On a legal configuration a window that overflows is the only error of a CMD write (R177). -/
theorem exec_legal_err (i : Instr) {s : State} (hb : s.busy = false) (hl : s.regs.legal) :
    ∃ t, exec i s = .next t ∧ t.status.err =
      if windowOverflows i (snapFor i s) (baseFor i s) = true then some .cfgOverflow else none := by
  cases ho : windowOverflows i (snapFor i s) (baseFor i s) with
  | true => exact ⟨_, exec_rejects_overflow hb hl ho, rfl⟩
  | false => exact ⟨_, exec_eq_started hb hl ho, rfl⟩

/-- The overflow check of HOTP_VER is on C + W (R177). -/
theorem windowOverflows_hotpVer_iff (sn : Snap) (base : DWord) :
    windowOverflows .hotpVer sn base = true ↔
      sn.counter.toNat + sn.window.toNat > 2 ^ 64 - 1 := decide_eq_true_iff

/-- The overflow check of TOTP_VER is on T + W, T being the floor of the time by the step (R140, R177). -/
theorem windowOverflows_totpVer_iff (useNow : Bool) (sn : Snap) (old : DWord) :
    windowOverflows (.totpVer useNow) sn (baseOf (.totpVer useNow) sn old) = true ↔
      sn.time.toNat / sn.stepSecs.toNat + sn.window.toNat > 2 ^ 64 - 1 := by
  rw [windowOverflows, decide_eq_true_iff, baseOf_time ⟨useNow, by simp⟩]

/-- Settles O22: the overflow check is the only one left, and it looks at the two verify commands only. -/
theorem overflowCheck : Obligations.OverflowCheck := by
  refine fun s hb hl => ⟨?_, fun u => ?_, fun i hh ht => ?_⟩
  · obtain ⟨t, hexec, herr⟩ := exec_legal_err .hotpVer hb hl
    simp only [windowOverflows_hotpVer_iff] at herr
    exact ⟨t, hexec, herr⟩
  · obtain ⟨t, hexec, herr⟩ := exec_legal_err (.totpVer u) hb hl
    simp only [windowOverflows_totpVer_iff] at herr
    rw [← sampleTime_fst (.totpVer u) u rfl s]
    exact ⟨t, hexec, herr⟩
  · have ho : windowOverflows i (snapFor i s) (baseFor i s) = false :=
      windowOverflows_eq_false (absurd · hh) fun ⟨u, hu⟩ => absurd hu (ht u)
    exact ⟨_, exec_eq_started hb hl ho, rfl, rfl⟩

/-! ### OVERRUN (R173) -/

/-- No CMD write of a command clears OVERRUN. -/
theorem issueCommand_overrun (i : Instr) {s : State} (h : s.status.overrun = true) :
    (issueCommand i s).status.overrun = true := by
  cases hb : s.busy with
  | true => rw [issueCommand_busy hb]; rfl
  | false =>
    rw [issueCommand_idle hb]
    obtain ⟨c, -, heq⟩ | ⟨-, -, heq⟩ | ⟨-, -, heq⟩ := decideCommand_cases i s <;> rw [heq] <;>
      exact h

/-- No CMD write of an illegal word clears OVERRUN. -/
theorem issueIllegal_overrun {s : State} (h : s.status.overrun = true) :
    (issueIllegal s).status.overrun = true := by
  cases hb : s.busy with
  | true => rw [issueIllegal_busy hb]; rfl
  | false => rw [issueIllegal_idle hb]; exact h

theorem digested_status (i : Instr) (d : List Byte) (s : State) :
    (digested i d s).status = s.status := by
  obtain ⟨sc, heq, -⟩ := digested_eq i d s
  rw [heq]

/-- No turn of a running command changes OVERRUN (R48). -/
theorem commandStep_overrun (i : Instr) {s : State} (hp : s.phase ≠ .idle) :
    (commandStep i s).status.overrun = s.status.overrun := by
  obtain ⟨-, -, heq⟩ | ⟨-, -, heq⟩ | ⟨-, -, heq⟩ | ⟨-, -, heq⟩ | ⟨d, -, -, heq⟩ | ⟨-, heq⟩ :=
    commandStep_cases i hp <;> rw [heq]
  · rfl
  · rfl
  · rfl
  · exact congrArg Status.overrun (digested_status i d s)
  · obtain ⟨-, -, hover, -⟩ := complete_frame i s
    exact hover

/-- A bus write after which a set OVERRUN is 0 is a write of a 1 to bit 4 of STATUS (R32). -/
theorem busWrite_clears_overrun {off : BitVec 8} {v : Word} {s t : State}
    (h : busWrite off v s = .next t) (hs : s.status.overrun = true)
    (ht : t.status.overrun = false) : off.toNat / 4 = 1 ∧ v.getLsbD 4 = true := by
  have kept {u : State} (hu : busWrite off v s = .next u) : u.status.overrun = false :=
    Host.Outcome.next.inj (hu.symm.trans h) ▸ ht
  obtain ⟨-, heq⟩ | ⟨-, i, -, heq⟩ | ⟨-, e, -, heq⟩ | ⟨hr, heq⟩ | ⟨r, -, -, -, heq⟩ :=
    busWrite_cases off v s
  · exact absurd hs (by simp [kept heq])
  · exact absurd (issueCommand_overrun i hs) (by simp [kept (heq.trans (exec_eq i s))])
  · exact absurd (issueIllegal_overrun hs) (by simp [kept heq])
  · exact ⟨(regAt_status_iff off).mp hr, by simpa [Status.clearedBy, hs] using kept heq⟩
  · exact absurd hs (by simpa using kept heq)

/-- Settles O19: a busy unit drops the word; of the events, reads, turns of the provider and turns of the unit keep
OVERRUN, and a bus write clears it at STATUS only. -/
theorem busyCommandIsDropped : Obligations.BusyCommandIsDropped := by
  refine ⟨fun w s hb => ⟨busWrite_cmd_busy w hb, rfl⟩, fun e s t h hs ht => ?_⟩
  have changed : t.status.overrun ≠ s.status.overrun := by simp [hs, ht]
  cases e with
  | reset => exact .inl rfl
  | write off v => exact .inr ⟨off, v, rfl, busWrite_clears_overrun h hs ht⟩
  | narrow off => cases h
  | read off => cases h; exact absurd rfl changed
  | provider =>
    cases h
    obtain ⟨r, -, -, heq⟩ | ⟨-, heq⟩ := providerStep_cases s <;>
      exact absurd (by rw [heq]) changed
  | unit =>
    obtain ⟨-, rfl⟩ | ⟨i, hp, -, rfl⟩ := unitStep_cases h
    · exact absurd rfl changed
    · exact absurd (commandStep_overrun i hp) changed

/-! ### KEY_FAIL of the generating commands (R122, R148, R176) -/

/-- A generating command that took a Fail writes no result register (R176). -/
theorem complete_generate_fail {i : Instr} (hg : i = .hotpGen ∨ ∃ u, i = .totpGen u) {s : State}
    (hf : s.scan.fail = true) : complete i s = completeKeyFail s := by
  obtain rfl | ⟨u, rfl⟩ := hg <;> exact if_pos hf

/-- The four turns of a generating command whose one request is answered Fail. -/
theorem runEvents_generate_fail {i : Instr} (hg : i = .hotpGen ∨ ∃ u, i = .totpGen u) {t : State}
    (hp : t.phase = .issue) (ho : t.snap.op = some i) (hport : t.port.rsp = none)
    (hk : t.scan.k = 0) (ha : pHmac t.env t.snap.alg (be64 (candidate i t 0).1) = .fail) :
    runEvents [.unit, .provider, .unit, .unit] t =
      .next (completeKeyFail ((takeFail (requested i t)).withPhase .finish)) := by
  rw [runEvents_request_fail hp ho (by rw [hk, requestCount_generate hg]; omega) hport
    (by rwa [hk]), complete_generate_fail hg rfl]

/-- Settles O46: the command is accepted, its one request fails, and the completion writes no register but STATUS. -/
theorem generateKeyFail : Obligations.GenerateKeyFail := by
  intro i s ctr hb hl hport hi hfail
  have hg : i = .hotpGen ∨ ∃ u, i = .totpGen u :=
    hi.imp And.left fun ⟨u, hu, _⟩ => ⟨u, hu⟩
  have ho : windowOverflows i (snapFor i s) (baseFor i s) = false := by
    obtain rfl | ⟨u, rfl⟩ := hg <;> rfl
  have hctr : (candidate i (started i s) 0).1 = ctr := by
    obtain ⟨rfl, rfl⟩ | ⟨u, rfl, rfl⟩ := hi
    · rfl
    · rw [← sampleTime_fst (.totpGen u) u rfl s]
      rfl
  subst hctr
  rw [← started_alg i hl] at hfail ⊢
  rw [← pHmac_started i] at hfail
  exact ⟨_, _, exec_eq_started hb hl ho,
    runEvents_generate_fail hg rfl rfl (congrArg Port.rsp hport) rfl hfail,
    rfl, rfl, rfl, rfl, rfl, rfl, rfl, rfl, sampleTime_snd i _ rfl s⟩

/-! ### No fault from a consistent state (R61, R66, R180) -/

/-- The unit's turn of a consistent unit: a busy one has a command latched. -/
theorem unitStep_safe {s : State} (h : s.Inv) : Safe (unitStep s) := by
  by_cases hp : s.phase = .idle
  · exact ⟨_, unitStep_idle hp⟩
  · obtain ⟨i, ho, -⟩ := h.running (busy_iff.mpr hp)
    exact ⟨_, unitStep_running hp ho⟩

/-- Of the events that meet a consistent unit only a narrow access does not answer a next state. -/
theorem runEvent_safe {e : Event} {s : State} (h : s.Inv) (hn : ∀ off, e ≠ .narrow off) :
    Safe (runEvent e s) := by
  cases e with
  | read off => exact ⟨_, rfl⟩
  | write off v => exact busWrite_safe off v s
  | narrow off => exact absurd rfl (hn off)
  | unit => exact unitStep_safe h
  | provider => exact ⟨_, rfl⟩
  | reset => exact ⟨_, rfl⟩

/-- Settles O54: a step is the first listed event, which is a narrow access or safe. -/
theorem consistentUnitNeverFaults : Obligations.ConsistentUnitNeverFaults := by
  intro s h
  unfold step
  cases s.env.events with
  | nil => exact .inl ⟨s, rfl⟩
  | cons e es =>
    by_cases hn : ∃ off, e = .narrow off
    · obtain ⟨off, rfl⟩ := hn
      exact .inr ⟨off, es, rfl, rfl⟩
    · exact .inl (runEvent_safe (h.replaced { s.env with events := es } s.regs) (not_exists.mp hn))

end Sys2Proof.Machine
end

section
/-! Reset (R200): what its step leaves, what it is the start of, and the one command with nothing to set up after it. -/

namespace Sys2Proof.Machine

/-- The history and the world outside, which a reset step keeps, are in no register. -/
theorem readReg_resetUnit_eq (s : State) (r : Reg) :
    readReg (resetUnit s) r = readReg State.reset r := by
  cases r <;> rfl

/-- The window right after reset: CONFIG reads 6, STEP 30, and every other register 0 (R22, R200). -/
theorem readReg_resetUnit (s : State) (r : Reg) :
    readReg (resetUnit s) r =
      if r.word = 3 then 0x00000006 else if r.word = 4 then 0x0000001E else 0 := by
  rw [readReg_resetUnit_eq]
  cases r with
  | digest k => rw [Reg.word, if_neg (by omega), if_neg (by omega)]; rfl
  | _ => decide

theorem busRead_resetUnit (s : State) (off : BitVec 8) :
    busRead off (resetUnit s) =
      if off.toNat / 4 = 3 then 0x00000006 else if off.toNat / 4 = 4 then 0x0000001E else 0 := by
  rw [busRead]
  cases hr : regAt off with
  | none =>
    have hoff : 0xA0 ≤ off.toNat := (regAt_none_iff off).mp hr
    rw [if_neg (by omega), if_neg (by omega)]
  | some r => rw [word_of_regAt hr]; exact readReg_resetUnit s r

/-- Settles O17: the state left is `resetUnit s`, whose window `busRead_resetUnit` reads; the two turns find an idle
unit with no request. -/
theorem resetStep : Obligations.ResetStep := fun s =>
  ⟨resetUnit s, rfl, busRead_resetUnit s, rfl, rfl, rfl, rfl, rfl, rfl,
    fun _ hb => List.eq_of_mem_replicate hb, rfl, rfl, rfl, rfl, rfl, unitStep_idle (s := resetUnit s) rfl⟩

/-- Settles O53: a reset step meets the invariant, and from the reset state it leaves that state. -/
theorem resetIsConsistent : Obligations.ResetIsConsistent := inv_resetUnit State.reset

theorem legal_reset : State.reset.regs.legal := by unfold Regs.legal; decide

/-- The turns of TRUNC right after reset: the CMD write is accepted, nothing is scanned, and the command completes. -/
theorem runEvents_trunc_reset :
    runEvents [.write 0x08 0x00000001, .unit, .unit] State.reset =
      .next (complete .trunc ((started .trunc State.reset).withPhase .finish)) := by
  have hexec : exec .trunc State.reset = .next (started .trunc State.reset) :=
    exec_eq_started rfl legal_reset rfl
  rw [runEvents_cons_next ((runEvent_write_cmd_ok (i := .trunc) rfl _).trans hexec)]
  exact runEvents_finish rfl rfl (Nat.zero_le _)

/-- Settles O18: what the registers of the completed unit read. -/
theorem truncAfterReset : Obligations.TruncAfterReset :=
  ⟨_, runEvents_trunc_reset, by decide, by decide, by decide, by decide, by decide⟩

end Sys2Proof.Machine
end

section
/-! The wait for the provider (R216). -/

namespace Sys2Proof.Machine

/-- A unit that waits for an answer goes on waiting through every move but the provider's and reset's. -/
theorem waiting_of_moves {e : Event} {s t : State} (m : Moves s e t) (hp : s.phase = .wait)
    (hr : s.port.rsp = none) (he : e ≠ .provider ∧ e ≠ .reset) :
    t.phase = .wait ∧ t.port.rsp = none ∧ t.history = s.history := by
  cases m with
  | command i => rw [issueCommand_busy (busy_iff.mpr (by simp [hp]))]; exact ⟨hp, hr, rfl⟩
  | illegal => obtain ⟨st, heq⟩ := issueIllegal_frame s; rw [heq]; exact ⟨hp, hr, rfl⟩
  | run i => rw [commandStep_wait_none hp hr]; exact ⟨hp, hr, rfl⟩
  | provider => exact absurd rfl he.1
  | reset => exact absurd rfl he.2
  | _ => exact ⟨hp, hr, rfl⟩

/-- Settles O28, by induction on the events. -/
theorem silentProviderHangs : Obligations.SilentProviderHangs := by
  intro es
  induction es with
  | nil => intro s t hp hr _ h; cases h; exact ⟨hp, hr, rfl⟩
  | cons e es ih =>
    intro s t hp hr hes h
    obtain ⟨he, hes⟩ := List.forall_mem_cons.mp hes
    cases hu : runEvent e s with
    | next u =>
      obtain ⟨hpu, hru, hhist⟩ := waiting_of_moves (moves_of_runEvent hu) hp hr he
      rw [runEvents_cons_next hu] at h
      rw [← hhist]
      exact ih u t hpu hru hes h
    | fault | refused => simp [runEvents, hu] at h

end Sys2Proof.Machine
end

section
/-! The requests of a command (R214). Two units are run side by side by the same turns: what decides the next request of
one decides that of the other, whatever their candidates and their digests are. -/

namespace Sys2Proof.Machine

/-! ### The request of an index (R121, R142) -/

/-- The request a running command sends for index `k`; none from the end of the scan on. -/
def requestAt (i : Instr) (s : State) (k : Nat) : Option Req :=
  if k < requestCount i s then some ⟨s.snap.alg, be64 (candidate i s k).1⟩ else none

theorem requestAt_eq_none {i : Instr} {s : State} (h : requestCount i s = 0) (k : Nat) :
    requestAt i s k = none := if_neg (by omega)

/-- Of the snapshot and the scan state a request depends on ALG, C, W and the base only (R121, R142). -/
theorem requestAt_of_operands {i : Instr} {s t : State} (halg : t.snap.alg = s.snap.alg)
    (hcounter : t.snap.counter = s.snap.counter) (hwindow : t.snap.window = s.snap.window)
    (hbase : t.scan.base = s.scan.base) (k : Nat) : requestAt i t k = requestAt i s k := by
  cases i <;>
    simp [requestAt, requestCount, countHotpVer, countTotpVer, candidate, candHotpGen, candTotpGen,
      candHotpVer, candTotpVer, halg, hcounter, hwindow, hbase]

theorem requestAt_congr {i : Instr} {s t : State} (hs : t.snap = s.snap)
    (hb : t.scan.base = s.scan.base) (k : Nat) : requestAt i t k = requestAt i s k :=
  requestAt_of_operands (by rw [hs]) (by rw [hs]) (by rw [hs]) hb k

/-- ISSUE sends the request of the current index (R40). -/
theorem commandStep_sends {i : Instr} {s : State} {r : Req} (hp : s.phase = .issue)
    (hr : requestAt i s s.scan.k = some r) :
    commandStep i s = (hmacRequest r.alg r.msg s).withPhase .wait := by
  rw [commandStep_issue hp, issueStep]
  unfold requestAt at hr
  split at hr
  next hk => cases hr; exact if_pos hk
  next => cases hr

/-- ISSUE goes to FINISH when the scan is at its end (R40). -/
theorem commandStep_ends {i : Instr} {s : State} (hp : s.phase = .issue)
    (hr : requestAt i s s.scan.k = none) : commandStep i s = s.withPhase .finish := by
  rw [commandStep_issue hp, issueStep]
  unfold requestAt at hr
  split at hr
  next => cases hr
  next hk => exact if_neg hk

/-- WAIT takes a digest and uses it (R40). -/
theorem commandStep_digested {i : Instr} {s : State} {d : List Byte} (hp : s.phase = .wait)
    (hr : s.port.rsp = some (.ok d)) : commandStep i s = digested i d s :=
  commandStep_wait_some hp hr

/-! ### Two units that ask alike -/

/-- Two answers, or their absence, that the sequencer treats alike: the digests may differ (R40). -/
inductive AnswersAlike : Option Answer → Option Answer → Prop where
  | absent : AnswersAlike none none
  | fail : AnswersAlike (some .fail) (some .fail)
  | ok (d d' : List Byte) : AnswersAlike (some (.ok d)) (some (.ok d'))

theorem AnswersAlike.none_iff {a a' : Option Answer} (h : AnswersAlike a a') :
    a = none ↔ a' = none := by
  cases h <;> simp

theorem answersAlike_of_fail_iff {a a' : Answer} (h : a = .fail ↔ a' = .fail) :
    AnswersAlike (some a) (some a') := by
  cases a with
  | fail => rw [h.mp rfl]; exact .fail
  | ok d =>
    cases a' with
    | fail => cases h.mpr rfl
    | ok d' => exact .ok d d'

/-- Two units that run the same command and are at the same index of the same scan. -/
structure ScansAlike (i : Instr) (s s' : State) : Prop where
  latched : s.snap.op = some i
  latched' : s'.snap.op = some i
  index : s'.scan.k = s.scan.k
  requests : ∀ k, requestAt i s' k = requestAt i s k

/-- Two units that have sent the same requests after the histories `h` and `h'`, and go on to send the same ones. -/
structure AsksAlike (i : Instr) (h h' : List Req) (s s' : State) : Prop where
  phase : s'.phase = s.phase
  request : s'.port.req = s.port.req
  answer : AnswersAlike s.port.rsp s'.port.rsp
  provider : ∀ alg m, pHmac s.env alg m = .fail ↔ pHmac s'.env alg m = .fail
  sent : ∃ reqs, s.history = h ++ reqs ∧ s'.history = h' ++ reqs
  scan : s.phase ≠ .idle → ScansAlike i s s'

/-- Scanning alike looks at the snapshot, the base and the index only. -/
theorem ScansAlike.congr {i : Instr} {s s' t t' : State} (w : ScansAlike i s s')
    (hs : t.snap = s.snap) (hs' : t'.snap = s'.snap) (hb : t.scan.base = s.scan.base)
    (hb' : t'.scan.base = s'.scan.base) (hk : t'.scan.k = t.scan.k) : ScansAlike i t t' where
  latched := hs ▸ w.latched
  latched' := hs' ▸ w.latched'
  index := hk
  requests := fun k => by rw [requestAt_congr hs' hb', requestAt_congr hs hb, w.requests]

section
variable {i : Instr} {h h' : List Req} {s s' : State} (w : AsksAlike i h h' s s')
include w

/-- The provider's turn answers both units or neither, and fails both or neither (R44). -/
theorem AsksAlike.providerTurn : AsksAlike i h h' (providerStep s) (providerStep s') := by
  obtain ⟨r, hreq, hrsp, heq⟩ | ⟨hoff, heq⟩ := providerStep_cases s <;>
    obtain ⟨r', hreq', hrsp', heq'⟩ | ⟨hoff', heq'⟩ := providerStep_cases s' <;>
    rw [heq, heq']
  · obtain rfl : r' = r := Option.some.inj (hreq'.symm.trans (w.request.trans hreq))
    exact ⟨w.phase, w.request, answersAlike_of_fail_iff (w.provider r'.alg r'.msg), w.provider,
      w.sent, fun hp => (w.scan hp).congr rfl rfl rfl rfl (w.scan hp).index⟩
  · exact absurd hoff' (by simp [w.request, hreq, w.answer.none_iff.mp hrsp])
  · exact absurd hoff (by simp [← w.request, hreq', w.answer.none_iff.mpr hrsp'])
  · exact w

/-- A turn of the unit in both: the same request from ISSUE, the same way on from WAIT, or the completion (R40). -/
theorem AsksAlike.unitTurn (hp : s.phase ≠ .idle) :
    AsksAlike i h h' (commandStep i s) (commandStep i s') := by
  have v := w.scan hp
  obtain ⟨reqs, hs, hs'⟩ := w.sent
  have hphase := w.phase
  cases hph : s.phase with
  | idle => exact absurd hph hp
  | issue =>
    rw [hph] at hphase
    have hnext : requestAt i s' s'.scan.k = requestAt i s s.scan.k := by rw [v.index, v.requests]
    cases hr : requestAt i s s.scan.k with
    | some r =>
      rw [commandStep_sends hph hr, commandStep_sends hphase (hnext.trans hr)]
      exact ⟨rfl, rfl, w.answer, w.provider,
        ⟨reqs ++ [r], by simp [hs], by simp [hs']⟩, fun _ => v.congr rfl rfl rfl rfl v.index⟩
    | none =>
      rw [commandStep_ends hph hr, commandStep_ends hphase (hnext.trans hr)]
      exact ⟨rfl, w.request, w.answer, w.provider, w.sent,
        fun _ => v.congr rfl rfl rfl rfl v.index⟩
  | wait =>
    rw [hph] at hphase
    have hans := w.answer
    generalize hr : s.port.rsp = r, hr' : s'.port.rsp = r' at hans
    cases hans with
    | absent => rwa [commandStep_wait_none hph hr, commandStep_wait_none hphase hr']
    | fail =>
      rw [commandStep_wait_some hph hr, commandStep_wait_some hphase hr']
      exact ⟨rfl, rfl, .absent, w.provider, w.sent, fun _ => v.congr rfl rfl rfl rfl v.index⟩
    | ok d d' =>
      obtain ⟨sc, heq, hbase, hk, -⟩ := digested_eq i d s
      obtain ⟨sc', heq', hbase', hk', -⟩ := digested_eq i d' s'
      rw [commandStep_digested hph hr, commandStep_digested hphase hr', heq, heq']
      exact ⟨rfl, rfl, .absent, w.provider, w.sent,
        fun _ => v.congr rfl rfl hbase hbase' (by rw [hk, hk', v.index])⟩
  | finish =>
    rw [hph] at hphase
    obtain ⟨hidle, -, -, hport, hhist, henv⟩ := complete_frame i s
    obtain ⟨hidle', -, -, hport', hhist', henv'⟩ := complete_frame i s'
    rw [commandStep_finish hph, commandStep_finish hphase]
    exact ⟨hidle'.trans hidle.symm, hport ▸ hport' ▸ w.request, hport ▸ hport' ▸ w.answer,
      henv ▸ henv' ▸ w.provider, ⟨reqs, hhist.trans hs, hhist'.trans hs'⟩,
      fun hne => absurd hidle hne⟩

/-- A turn of the unit or of the provider is a step of both units, which go on to ask alike. -/
theorem AsksAlike.turn {e : Event} (he : e = .unit ∨ e = .provider) :
    ∃ t t', runEvent e s = .next t ∧ runEvent e s' = .next t' ∧ AsksAlike i h h' t t' := by
  obtain rfl | rfl := he
  · by_cases hp : s.phase = .idle
    · exact ⟨s, s', unitStep_idle hp, unitStep_idle (w.phase.trans hp), w⟩
    · exact ⟨_, _, unitStep_running hp (w.scan hp).latched,
        unitStep_running (w.phase ▸ hp) (w.scan hp).latched', w.unitTurn hp⟩
  · exact ⟨_, _, rfl, rfl, w.providerTurn⟩

end

/-- Any turns of the unit and the provider. -/
theorem AsksAlike.turns {i : Instr} {h h' : List Req} (es : List Event) {s s' : State}
    (w : AsksAlike i h h' s s') (hes : ∀ e ∈ es, e = .unit ∨ e = .provider) :
    ∃ u u', runEvents es s = .next u ∧ runEvents es s' = .next u' ∧ AsksAlike i h h' u u' := by
  induction es generalizing s s' with
  | nil => exact ⟨s, s', rfl, rfl, w⟩
  | cons e es ih =>
    obtain ⟨he, hes⟩ := List.forall_mem_cons.mp hes
    obtain ⟨t, t', ht, ht', w⟩ := w.turn he
    rw [runEvents_cons_next ht, runEvents_cons_next ht']
    exact ih w hes

/-! ### The acceptance of the same command by both (R170) -/

section
variable {s s' : State} (hregs : s'.regs =
    { s.regs with candLen := s'.regs.candLen, cand := s'.regs.cand, dbuf := s'.regs.dbuf })
include hregs

/-- Configuration validation decides the same (R172). -/
theorem configError_congr (i : Instr) : configError i s'.regs = configError i s.regs := by
  rw [hregs]; rfl

variable (hnow : s'.env.nowInput = s.env.nowInput) (hdraws : s'.env.draws = s.env.draws)
include hnow hdraws

/-- Both sample the same time: from the TIME register or by the same draw (R41, R45). -/
theorem sampleTime_fst_congr (i : Instr) : (sampleTime i s').1 = (sampleTime i s).1 := by
  cases hu : i.useNow with
  | false =>
    rw [sampleTime_of_register hu, sampleTime_of_register hu]
    rw [hregs]; rfl
  | true =>
    rw [sampleTime_of_useNow hu, sampleTime_of_useNow hu, drawNow, drawNow, hnow, hdraws]
    split <;> rfl

/-- The snapshots differ in the candidate, the digest and, where CONFIG selects none, the algorithm (R41; log 7). -/
theorem snapFor_congr (i : Instr) : snapFor i s' =
    { snapFor i s with
      alg := (snapFor i s').alg
      candLen := s'.regs.candLen
      cand := s'.regs.cand
      dig := s'.regs.dbuf } := by
  rw [snapFor, snapFor, sampleTime_fst_congr hregs hnow hdraws, takeSnapshot, hregs]
  rfl

/-- The overflow check decides the same (R177). -/
theorem windowOverflows_congr (i : Instr) :
    windowOverflows i (snapFor i s') (baseFor i s') =
      windowOverflows i (snapFor i s) (baseFor i s) := by
  rw [baseFor, snapFor_congr hregs hnow hdraws]
  cases i <;> rfl

/-- Acceptance sets the same base, but for the commands that leave it and scan nothing (R170). -/
theorem baseFor_congr {i : Instr} (ht : i ≠ .trunc) (hz : i ≠ .zeroize) :
    baseFor i s' = baseFor i s := by
  rw [baseFor, snapFor_congr hregs hnow hdraws]
  cases i with
  | trunc => exact absurd rfl ht
  | zeroize => exact absurd rfl hz
  | _ => rfl

/-- Two units that accept the same command send the same request for each index. -/
theorem requestAt_started {i : Instr} (hl : i = .zeroize ∨ s.regs.legal) (k : Nat) :
    requestAt i (started i s') k = requestAt i (started i s) k := by
  by_cases hz : i = .zeroize
  · subst hz
    rw [requestAt_eq_none rfl, requestAt_eq_none rfl]
  by_cases ht : i = .trunc
  · subst ht
    rw [requestAt_eq_none rfl, requestAt_eq_none rfl]
  have hl : s.regs.legal := hl.resolve_left hz
  have hl' : s'.regs.legal := by rw [hregs]; exact hl
  have hsnap := snapFor_congr hregs hnow hdraws i
  refine requestAt_of_operands ?_ ((congrArg Snap.counter hsnap).trans rfl)
    ((congrArg Snap.window hsnap).trans rfl) (baseFor_congr hregs hnow hdraws ht hz) k
  rw [started_alg i hl, started_alg i hl', hregs]
  rfl

/-- The same command written to both is rejected for the same cause, and the idle units ask for nothing, or it is
accepted, and they start the same scan. -/
theorem asksAlike_of_exec (i : Instr) (hb : s.busy = false) (hb' : s'.busy = false)
    (hport : s.port = { req := none, rsp := none })
    (hport' : s'.port = { req := none, rsp := none })
    (hfail : ∀ alg m, pHmac s.env alg m = .fail ↔ pHmac s'.env alg m = .fail) :
    ∃ t t', exec i s = .next t ∧ exec i s' = .next t' ∧ AsksAlike i s.history s'.history t t' := by
  have hconfig := configError_congr hregs i
  have hover := windowOverflows_congr hregs hnow hdraws i
  have hp : s.phase = .idle := busy_false_iff.mp hb
  have hp' : s'.phase = .idle := busy_false_iff.mp hb'
  have hreq : s'.port.req = s.port.req := by rw [hport, hport']
  have hans : AnswersAlike s.port.rsp s'.port.rsp := by rw [hport, hport']; exact .absent
  have hsent : ∃ reqs, s.history = s.history ++ reqs ∧ s'.history = s'.history ++ reqs :=
    ⟨[], by simp, by simp⟩
  have hfail' : ∀ alg m, pHmac (sampleTime i s).2 alg m = .fail ↔
      pHmac (sampleTime i s').2 alg m = .fail := fun alg m => by
    rw [pHmac_congr (sampleTime_answers i s), pHmac_congr (sampleTime_answers i s')]
    exact hfail alg m
  cases hc : configError i s.regs with
  | some c =>
    exact ⟨_, _, exec_rejects_configError hb hc, exec_rejects_configError hb' (hconfig.trans hc),
      hp'.trans hp.symm, hreq, hans, hfail, hsent, fun hne => absurd hp hne⟩
  | none =>
    have hl := configError_eq_none_iff.mp hc
    have hl' := configError_eq_none_iff.mp (hconfig.trans hc)
    cases ho : windowOverflows i (snapFor i s) (baseFor i s) with
    | true =>
      have hz : i ≠ .zeroize := by rintro rfl; cases ho
      exact ⟨_, _, exec_rejects_overflow hb (hl.resolve_left hz) ho,
        exec_rejects_overflow hb' (hl'.resolve_left hz) (hover.trans ho),
        hp'.trans hp.symm, hreq, hans, hfail', hsent, fun hne => absurd hp hne⟩
    | false =>
      exact ⟨_, _, exec_accepts hb hl ho, exec_accepts hb' hl' (hover.trans ho),
        by simp only [accept_phase], hreq, hans, hfail', hsent,
        fun _ => ⟨rfl, rfl, by simp only [accept_scan, scanStart],
          requestAt_started hregs hnow hdraws hl⟩⟩

end

/-- Settles O51: the decision leaves two units that ask alike, and any turns keep them so. -/
theorem requestsIndependentOfCandidate : Obligations.RequestsIndependentOfCandidate := by
  intro i s s' es hb hb' hregs hnow hdraws hport hport' hfail hes
  obtain ⟨t, t', ht, ht', w⟩ := asksAlike_of_exec hregs hnow hdraws i hb hb' hport hport' hfail
  obtain ⟨u, u', hu, hu', w⟩ := w.turns es hes
  obtain ⟨reqs, hs, hs'⟩ := w.sent
  exact ⟨t, t', u, u', reqs, ht, ht', hu, hu', hs, hs'⟩

end Sys2Proof.Machine
end
